-- ==== Sys2Proof/Word.lean ====
section
/-! DEFINITION. The unsigned widths of the block (00_scope.md R7) and the plain operand data built from them. -/

namespace Sys2Proof

/-- `u8`: a colour channel, a coordinate, a font dimension, a scroll column. -/
abbrev Byte := BitVec 8

/-- `u16`: a Color16, one cell of a pixel buffer (40_colorcodec.md R80). -/
abbrev Color16 := BitVec 16

/-- `u32`: one packet word (30_encoding.md R50). -/
abbrev Word := BitVec 32

/-- `u64`: one bit-packed glyph (20_memory.md R32). -/
abbrev GlyphWord := BitVec 64

/-- The three channels a `W_RGB` word carries: an RGB888 triple or a component triple (30_encoding.md R53). -/
structure Rgb where
  r : Byte
  g : Byte
  b : Byte
  deriving DecidableEq, Repr

/-- The selector `B` (DOC0's `useBack`): which buffer a read command reads (30_encoding.md R55). -/
inductive BufSel
  | front
  | back
  deriving DecidableEq, Repr

/-- The selector `F`: which font a glyph command uses (30_encoding.md R55). -/
inductive FontSel
  | default
  | user
  deriving DecidableEq, Repr

end Sys2Proof
end

