-- ==== Sys2Proof/Config.lean ====
section
/-! DEFINITION. What is fixed for one block and does not change as it runs (00_scope.md R5, R6): the open built-in font,
the expansion table, and the two open parameters of the driver's view. -/

namespace Sys2Proof

/-- A font's 95 glyph words, entry `ch - 0x20` for the printable `ch` (10_state.md R15, R16; 20_memory.md R32). -/
abbrev GlyphTable := Vector GlyphWord 95

/-- `DEFAULT_GLYPHS` (00_scope.md R6): OPEN, so a constant with no body; nothing may be assumed of any word (DEDUCED, safe: log 4). -/
opaque Config.defaultGlyphs : GlyphTable

/-- `dfont.w`, fixed at 5 (10_state.md R15). -/
def builtinWidth : Byte := 5

/-- `dfont.h`, fixed at 8 (10_state.md R15). -/
def builtinHeight : Byte := 8

/-- The two readings of DOC0's 5-to-8 and 6-to-8 bit expansion (93_implementation_defined.md U2). -/
inductive Expand
  | formula
  | replicate
  deriving DecidableEq, Repr

/-- `EXPAND`: 90_conflicts.md C1 resolves it to the written formula (40_colorcodec.md R83; UNVERIFIED, unsafe: log 12). -/
def Config.expand : Expand := .formula

/-- How the driver lays one 16-bit cell out in its byte-addressed memory (20_memory.md R34). -/
inductive ByteOrder
  | lowByteFirst
  | highByteFirst
  deriving DecidableEq, Repr, Inhabited

/-- `DRIVER_BYTE_ORDER` (00_scope.md R6): OPEN, so a constant with no body; no command depends on it (DESIGN CHOICE, safe: log 14). -/
opaque Config.driverByteOrder : ByteOrder

/-- `DRIVER_SNAPSHOT` (20_memory.md R42): may the driver read between the cell writes of one present action? -/
inductive Snapshot
  | command
  | cell
  deriving DecidableEq, Repr

end Sys2Proof
end

