-- ==== Sys2Proof/Syntax.lean ====
section
/-! DEFINITION. The 21 commands of 30_encoding.md R56, one constructor per row of spec/opcode_table.json, with their operands
already taken out of the payload words (R53, R61) and the selector bit named (R55). -/

namespace Sys2Proof

/-- A well-formed command of the block. `SHOW` and `FREE` (30_encoding.md R63) are the packets of `present` and `release`. -/
inductive Instr
  | pack888 (r g b : Byte)
  | packRaw (r5 g6 b5 : Byte)
  | unpack565 (c : Color16)
  | unpack888 (c : Color16)
  | init
  | release
  | getPix (sel : BufSel) (x y : Byte)
  | getPixRaw (sel : BufSel) (x y : Byte)
  | getAllRaw (sel : BufSel)
  | setPix (x y r g b : Byte)
  | setPixRaw (x y r5 g6 b5 : Byte)
  | setAllRaw (values : List Color16)
  | fill (c : Color16)
  | clear (redraw : Bool)
  | drawBitmap (w h : Byte) (pixels : List Rgb)
  | setRot (redraw : Bool) (o : Byte)
  | present
  | glyphBits (sel : FontSel) (ch : Word)
  | loadFont (w h : Byte) (glyphs : GlyphTable)
  | drawLetter (sel : FontSel) (ch : Word) (c : Color16)
  | scroll (sel : FontSel) (c : Color16) (delay : Word) (msg : List Word)
  deriving DecidableEq, Repr

end Sys2Proof
end

