-- ==== Sys2Proof/WellFormed.lean ====
section
/-! DEFINITION. Which terms of `Instr` a packet can carry: the three variable-length payloads must fit the 16-bit `LEN`
field, and a bitmap must bring as many pixels as its dimensions say (30_encoding.md R51, R58e, R60). -/

namespace Sys2Proof

/-- The checks on a command's operands that its types do not already make. Every other operand takes every value. -/
def Instr.wf : Instr → Bool
  | .setAllRaw values => decide (values.length ≤ 65535)
  | .drawBitmap w h pixels => decide (pixels.length = w.toNat * h.toNat)
  | .scroll _ _ _ msg => decide (msg.length ≤ 65533)
  | .pack888 _ _ _ => true
  | .packRaw _ _ _ => true
  | .unpack565 _ => true
  | .unpack888 _ => true
  | .init => true
  | .release => true
  | .getPix _ _ _ => true
  | .getPixRaw _ _ _ => true
  | .getAllRaw _ => true
  | .setPix _ _ _ _ _ => true
  | .setPixRaw _ _ _ _ _ => true
  | .fill _ => true
  | .clear _ => true
  | .setRot _ _ => true
  | .present => true
  | .glyphBits _ _ => true
  | .loadFont _ _ _ => true
  | .drawLetter _ _ _ => true

end Sys2Proof
end

