-- ==== Sys2Proof/Decode.lean ====
section
/-! DEFINITION. Packets: framing by `LEN` (30_encoding.md R52), the opcode map (R56), the decoder with every malformed
packet rejected by name (R57, R58), and after it the encoder written from the same tables. -/

namespace Sys2Proof

/-! ### The opcode map -/

/-- One name per row of 30_encoding.md R56. -/
inductive Op
  | pack888 | packRaw | unpack565 | unpack888
  | init | release | getPix | getPixRaw | getAllRaw | setPix | setPixRaw | setAllRaw | fill | clear | drawBitmap
  | setRot | present
  | glyphBits | loadFont | drawLetter | scroll
  deriving DecidableEq, Repr

/-- The 21 rows in the table's order. -/
def allOps : List Op :=
  [.pack888, .packRaw, .unpack565, .unpack888, .init, .release, .getPix, .getPixRaw, .getAllRaw, .setPix, .setPixRaw,
   .setAllRaw, .fill, .clear, .drawBitmap, .setRot, .present, .glyphBits, .loadFont, .drawLetter, .scroll]

/-- The `OPC` column of 30_encoding.md R56. -/
def Op.opc : Op → Byte
  | .pack888 => 0x01
  | .packRaw => 0x02
  | .unpack565 => 0x03
  | .unpack888 => 0x04
  | .init => 0x10
  | .release => 0x11
  | .getPix => 0x12
  | .getPixRaw => 0x13
  | .getAllRaw => 0x14
  | .setPix => 0x15
  | .setPixRaw => 0x16
  | .setAllRaw => 0x17
  | .fill => 0x18
  | .clear => 0x19
  | .drawBitmap => 0x1A
  | .setRot => 0x20
  | .present => 0x21
  | .glyphBits => 0x30
  | .loadFont => 0x31
  | .drawLetter => 0x32
  | .scroll => 0x33

/-- The `sel` column of 30_encoding.md R56: does the command have a selector bit (R55)? -/
def Op.hasSelector : Op → Bool
  | .getPix | .getPixRaw | .getAllRaw | .clear | .setRot | .glyphBits | .drawLetter | .scroll => true
  | .pack888 | .packRaw | .unpack565 | .unpack888 | .init | .release | .setPix | .setPixRaw | .setAllRaw | .fill
  | .drawBitmap | .present | .loadFont => false

/-- The `LEN` column of 30_encoding.md R56: `none` for the three commands of variable length (R60). -/
def Op.fixedLen : Op → Option Nat
  | .init | .release | .getAllRaw | .clear | .present => some 0
  | .pack888 | .packRaw | .unpack565 | .unpack888 | .getPix | .getPixRaw | .fill | .setRot | .glyphBits => some 1
  | .setPix | .setPixRaw | .drawLetter => some 2
  | .loadFont => some 191
  | .setAllRaw | .drawBitmap | .scroll => none

/-- The command an `OPC` value selects, if any (30_encoding.md R56, R59). -/
def opOfOpc (opc : Byte) : Option Op := allOps.find? fun op => op.opc == opc

/-- The command a term of `Instr` is a form of. -/
def Instr.op : Instr → Op
  | .pack888 _ _ _ => .pack888
  | .packRaw _ _ _ => .packRaw
  | .unpack565 _ => .unpack565
  | .unpack888 _ => .unpack888
  | .init => .init
  | .release => .release
  | .getPix _ _ _ => .getPix
  | .getPixRaw _ _ _ => .getPixRaw
  | .getAllRaw _ => .getAllRaw
  | .setPix _ _ _ _ _ => .setPix
  | .setPixRaw _ _ _ _ _ => .setPixRaw
  | .setAllRaw _ => .setAllRaw
  | .fill _ => .fill
  | .clear _ => .clear
  | .drawBitmap _ _ _ => .drawBitmap
  | .setRot _ _ => .setRot
  | .present => .present
  | .glyphBits _ _ => .glyphBits
  | .loadFont _ _ _ => .loadFont
  | .drawLetter _ _ _ => .drawLetter
  | .scroll _ _ _ _ => .scroll

/-! ### Fields of a command header (30_encoding.md R51) -/

/-- `OPC`, bits 31:24. -/
def opcField (h : Word) : Byte := h.extractLsb' 24 8

/-- `FLG[7:1]`, bits 23:17, reserved. -/
def reservedFlags (h : Word) : BitVec 7 := h.extractLsb' 17 7

/-- `FLG[0]`, bit 16, the selector. -/
def selectorBit (h : Word) : Bool := h.getLsbD 16

/-- `LEN`, bits 15:0, the number of payload words. -/
def lenField (h : Word) : Nat := (h.extractLsb' 0 16).toNat

/-- Does one 32-bit header belong to the row of `op`? The row's `(H & mask) == match` (30_encoding.md R57). -/
def rowMask (op : Op) : Word :=
  (match op.hasSelector with | true => 0xFFFE0000#32 | false => 0xFFFF0000#32) |||
  (match op.fixedLen with | some _ => 0x0000FFFF#32 | none => 0x00000000#32)

/-- The `match` word of the row of `op` (30_encoding.md R57). -/
def rowMatch (op : Op) : Word := op.opc ++ 0#8 ++ BitVec.ofNat 16 (op.fixedLen.getD 0)

/-! ### Framing (30_encoding.md R52) -/

/-- What stands at the head of the command stream. -/
inductive Framed
  /-- no word at all: the block waits for a header -/
  | empty
  /-- a header whose payload has not all arrived -/
  | incomplete
  /-- a whole packet and the stream after it -/
  | packet (header : Word) (payload rest : List Word)
  deriving DecidableEq, Repr

/-- Take one packet off the stream: the header, then exactly `LEN` more words, whatever `OPC` is (30_encoding.md R52). -/
def takePacket : List Word → Framed
  | [] => .empty
  | h :: tail =>
    if tail.length < lenField h then .incomplete
    else .packet h (tail.take (lenField h)) (tail.drop (lenField h))

/-! ### Malformed packets (30_encoding.md R58) -/

/-- Why a packet is no command; each ends in `BadCommand`. The letters are those of 30_encoding.md R58. -/
inductive Malformed
  /-- (a) `OPC` is not one of the 21 values -/
  | unknownOpcode
  /-- (b) a bit of `FLG[7:1]` is 1 -/
  | reservedFlag
  /-- (c) `FLG[0]` is 1 on a command without a selector -/
  | selectorNotAllowed
  /-- (d) `LEN` is not the command's fixed length -/
  | wrongLength
  /-- (e) `DRAWBITMAP` without a `W_DIM` word, or with `LEN - 1` different from `w * h` -/
  | bitmapLength
  /-- (f) `SCROLL` with `LEN < 2` -/
  | scrollTooShort
  /-- (g) a reserved bit of a payload word is 1 -/
  | reservedOperandBit
  /-- the payload is not the header's `LEN` words; never so for a packet that `takePacket` framed -/
  | notFramed
  deriving DecidableEq, Repr

/-! ### Payload words (30_encoding.md R53) -/

/-- `W_RGB`: bits 31:24 reserved, then the three channels. -/
def readRgb (w : Word) : Except Malformed Rgb :=
  if w.extractLsb' 24 8 = 0 then
    .ok { r := w.extractLsb' 16 8, g := w.extractLsb' 8 8, b := w.extractLsb' 0 8 }
  else .error .reservedOperandBit

/-- `W_C16`: bits 31:16 reserved, 15:0 the colour. -/
def readC16 (w : Word) : Except Malformed Color16 :=
  if w.extractLsb' 16 16 = 0 then .ok (w.extractLsb' 0 16) else .error .reservedOperandBit

/-- `W_XY` and `W_DIM`: bits 31:16 reserved, 15:8 the second byte (`y`, `h`), 7:0 the first (`x`, `w`).
The pair is answered as (bits 7:0, bits 15:8). -/
def readPair (w : Word) : Except Malformed (Byte × Byte) :=
  if w.extractLsb' 16 16 = 0 then .ok (w.extractLsb' 0 8, w.extractLsb' 8 8) else .error .reservedOperandBit

/-- `W_ROT`: bits 31:8 reserved, 7:0 the orientation code. -/
def readRot (w : Word) : Except Malformed Byte :=
  if w.extractLsb' 8 24 = 0 then .ok (w.extractLsb' 0 8) else .error .reservedOperandBit

/-- Read every word of a list, failing at the first that is malformed. -/
def readAll {α : Type} (read : Word → Except Malformed α) : List Word → Except Malformed (List α)
  | [] => .ok []
  | w :: ws => do
    let a ← read w
    let as ← readAll read ws
    return a :: as

/-- The glyphs of a `LOADFONT` payload: `{W_HI, W_LO}` pairs, high half first (30_encoding.md R53, R61). -/
def readGlyphs : List Word → List GlyphWord
  | hi :: lo :: rest => (hi ++ lo) :: readGlyphs rest
  | _ => []

/-- A list of glyphs as a table, if there are exactly 95. -/
def glyphTable (gs : List GlyphWord) : Option GlyphTable :=
  if h : gs.length = 95 then some ⟨gs.toArray, by simpa using h⟩ else none

/-! ### The decoder -/

/-- The selector `B`: 1 reads `back` (30_encoding.md R55). -/
def bufSelOf (bit : Bool) : BufSel := if bit then .back else .front

/-- The selector `F`: 1 selects `ufont` (30_encoding.md R55). -/
def fontSelOf (bit : Bool) : FontSel := if bit then .user else .default

/-- A command without payload words. -/
def payload0 (i : Instr) (payload : List Word) : Except Malformed Instr :=
  match payload with
  | [] => .ok i
  | _ => .error .wrongLength

/-- A command with one payload word. -/
def payload1 (read : Word → Except Malformed Instr) (payload : List Word) : Except Malformed Instr :=
  match payload with
  | [w] => read w
  | _ => .error .wrongLength

/-- A command with two payload words. -/
def payload2 (read : Word → Word → Except Malformed Instr) (payload : List Word) : Except Malformed Instr :=
  match payload with
  | [w, v] => read w v
  | _ => .error .wrongLength

/-- `DRAWBITMAP`: a `W_DIM` word, then as many `W_RGB` words as it says (30_encoding.md R56, R58e). -/
def bitmapPayload (payload : List Word) : Except Malformed Instr :=
  match payload with
  | [] => .error .bitmapLength
  | dim :: ws => do
    let p ← readPair dim
    let pixels ← readAll readRgb ws
    if ws.length = p.1.toNat * p.2.toNat then .ok (.drawBitmap p.1 p.2 pixels) else .error .bitmapLength

/-- `LOADFONT`: a `W_DIM` word, then 95 glyphs of two words (30_encoding.md R56). -/
def fontPayload (payload : List Word) : Except Malformed Instr :=
  match payload with
  | [] => .error .wrongLength
  | dim :: ws => do
    let p ← readPair dim
    match glyphTable (readGlyphs ws) with
    | some glyphs => .ok (.loadFont p.1 p.2 glyphs)
    | none => .error .wrongLength

/-- `SCROLL`: a `W_C16` word, a `W_MS` word, then the message (30_encoding.md R56, R58f). -/
def scrollPayload (sel : FontSel) (payload : List Word) : Except Malformed Instr :=
  match payload with
  | w :: delay :: msg => do let c ← readC16 w; return .scroll sel c delay msg
  | _ => .error .scrollTooShort

/-- The operands of a command, from its selector bit and payload (30_encoding.md R56); a payload of another shape is a wrong length. -/
def decodePayload (op : Op) (sel : Bool) (payload : List Word) : Except Malformed Instr :=
  match op with
  | .pack888 => payload1 (fun w => do let c ← readRgb w; return .pack888 c.r c.g c.b) payload
  | .packRaw => payload1 (fun w => do let c ← readRgb w; return .packRaw c.r c.g c.b) payload
  | .unpack565 => payload1 (fun w => do let c ← readC16 w; return .unpack565 c) payload
  | .unpack888 => payload1 (fun w => do let c ← readC16 w; return .unpack888 c) payload
  | .init => payload0 .init payload
  | .release => payload0 .release payload
  | .getPix => payload1 (fun w => do let p ← readPair w; return .getPix (bufSelOf sel) p.1 p.2) payload
  | .getPixRaw => payload1 (fun w => do let p ← readPair w; return .getPixRaw (bufSelOf sel) p.1 p.2) payload
  | .getAllRaw => payload0 (.getAllRaw (bufSelOf sel)) payload
  | .setPix =>
    payload2 (fun w v => do let p ← readPair w; let c ← readRgb v; return .setPix p.1 p.2 c.r c.g c.b) payload
  | .setPixRaw =>
    payload2 (fun w v => do let p ← readPair w; let c ← readRgb v; return .setPixRaw p.1 p.2 c.r c.g c.b) payload
  | .setAllRaw => do let cs ← readAll readC16 payload; return .setAllRaw cs
  | .fill => payload1 (fun w => do let c ← readC16 w; return .fill c) payload
  | .clear => payload0 (.clear sel) payload
  | .drawBitmap => bitmapPayload payload
  | .setRot => payload1 (fun w => do let o ← readRot w; return .setRot sel o) payload
  | .present => payload0 .present payload
  | .glyphBits => payload1 (fun ch => .ok (.glyphBits (fontSelOf sel) ch)) payload
  | .loadFont => fontPayload payload
  | .drawLetter => payload2 (fun ch w => do let c ← readC16 w; return .drawLetter (fontSelOf sel) ch c) payload
  | .scroll => scrollPayload (fontSelOf sel) payload

/-- The checks on the header word alone, (a) to (d) of 30_encoding.md R58. -/
def decodeHeader (h : Word) : Except Malformed Op :=
  match opOfOpc (opcField h) with
  | none => .error .unknownOpcode
  | some op =>
    if reservedFlags h ≠ 0 then .error .reservedFlag
    else if selectorBit h && !op.hasSelector then .error .selectorNotAllowed
    else match op.fixedLen with
      | some n => if lenField h = n then .ok op else .error .wrongLength
      | none => .ok op

/-- The command of a packet, or why it is none (30_encoding.md R57, R58). Total on any words. -/
def decode (h : Word) (payload : List Word) : Except Malformed Instr := do
  let op ← decodeHeader h
  if payload.length = lenField h then decodePayload op (selectorBit h) payload else .error .notFramed

/-! ### The encoder, from the same tables -/

/-- `W_RGB` (30_encoding.md R53). -/
def rgbWord (c : Rgb) : Word := 0#8 ++ c.r ++ c.g ++ c.b

/-- `W_C16` (30_encoding.md R53): `zext_32`. -/
def c16Word (c : Color16) : Word := 0#16 ++ c

/-- `W_XY` and `W_DIM` (30_encoding.md R53): `lo` in bits 7:0, `hi` in bits 15:8. -/
def pairWord (lo hi : Byte) : Word := 0#16 ++ hi ++ lo

/-- `W_ROT` (30_encoding.md R53). -/
def rotWord (o : Byte) : Word := 0#24 ++ o

/-- `W_HI` of a glyph, bits 63:32 (30_encoding.md R53). -/
def hiWord (g : GlyphWord) : Word := g.extractLsb' 32 32

/-- `W_LO` of a glyph, bits 31:0 (30_encoding.md R53). -/
def loWord (g : GlyphWord) : Word := g.extractLsb' 0 32

/-- The glyphs of a `LOADFONT` payload, each as `W_HI` then `W_LO`. -/
def glyphWords : List GlyphWord → List Word
  | [] => []
  | g :: gs => hiWord g :: loWord g :: glyphWords gs

/-- `B` as a bit: 1 for `back`. -/
def bufSelBit : BufSel → Bool
  | .front => false
  | .back => true

/-- `F` as a bit: 1 for `ufont`. -/
def fontSelBit : FontSel → Bool
  | .default => false
  | .user => true

/-- The selector bit of a command, 0 where it has none (30_encoding.md R55). -/
def Instr.selector : Instr → Bool
  | .getPix sel _ _ => bufSelBit sel
  | .getPixRaw sel _ _ => bufSelBit sel
  | .getAllRaw sel => bufSelBit sel
  | .clear redraw => redraw
  | .setRot redraw _ => redraw
  | .glyphBits sel _ => fontSelBit sel
  | .drawLetter sel _ _ => fontSelBit sel
  | .scroll sel _ _ _ => fontSelBit sel
  | .pack888 _ _ _ | .packRaw _ _ _ | .unpack565 _ | .unpack888 _ | .init | .release | .setPix _ _ _ _ _
  | .setPixRaw _ _ _ _ _ | .setAllRaw _ | .fill _ | .drawBitmap _ _ _ | .present | .loadFont _ _ _ => false

/-- The payload words of a command, in the order of 30_encoding.md R56. -/
def Instr.payload : Instr → List Word
  | .pack888 r g b => [rgbWord ⟨r, g, b⟩]
  | .packRaw r5 g6 b5 => [rgbWord ⟨r5, g6, b5⟩]
  | .unpack565 c => [c16Word c]
  | .unpack888 c => [c16Word c]
  | .init => []
  | .release => []
  | .getPix _ x y => [pairWord x y]
  | .getPixRaw _ x y => [pairWord x y]
  | .getAllRaw _ => []
  | .setPix x y r g b => [pairWord x y, rgbWord ⟨r, g, b⟩]
  | .setPixRaw x y r5 g6 b5 => [pairWord x y, rgbWord ⟨r5, g6, b5⟩]
  | .setAllRaw values => values.map c16Word
  | .fill c => [c16Word c]
  | .clear _ => []
  | .drawBitmap w h pixels => pairWord w h :: pixels.map rgbWord
  | .setRot _ o => [rotWord o]
  | .present => []
  | .glyphBits _ ch => [ch]
  | .loadFont w h glyphs => pairWord w h :: glyphWords glyphs.toList
  | .drawLetter _ ch c => [ch, c16Word c]
  | .scroll _ c delay msg => c16Word c :: delay :: msg

/-- A command header (30_encoding.md R51). -/
def headerWord (op : Op) (sel : Bool) (len : Nat) : Word := op.opc ++ 0#7 ++ BitVec.ofBool sel ++ BitVec.ofNat 16 len

/-- The header of a command. -/
def Instr.header (i : Instr) : Word := headerWord i.op i.selector i.payload.length

/-- The packet of a command: its header, then its payload (30_encoding.md R50). -/
def encode (i : Instr) : List Word := i.header :: i.payload

/-! ### The host's numbering of an instruction's bits -/

/-- `n` words of a number, the first in its low 32 bits. -/
def wordsOf : Nat → Nat → List Word
  | 0, _ => []
  | n + 1, bits => BitVec.ofNat 32 bits :: wordsOf n (bits >>> 32)

/-- The packet whose bits are `w` (bit 0 the least significant bit of the header, a payload word's bits counting on from it),
all bits above `nbits` zero, with as many payload words as its own `LEN` field says. -/
def tablePacket (nbits w : Nat) : List Word :=
  let bits := w % 2 ^ nbits
  wordsOf (1 + lenField (BitVec.ofNat 32 bits)) bits

/-- The command the decoder reads from the packet whose bits are `w`. -/
def decodeTableWord (nbits w : Nat) : Option Instr :=
  match takePacket (tablePacket nbits w) with
  | .packet h payload _ => (decode h payload).toOption
  | .incomplete => none
  | .empty => none

end Sys2Proof
end

