-- ==== Sys2Proof/Machine/State.lean ====
section
/-! DEFINITION. The state of the block as plain data (10_state.md R10 to R17), the streams and inputs beside it (R18, R19),
what a step can stop with, and the state right after reset (R23; 70_reset_and_hazards.md R176). -/

namespace Sys2Proof.Machine

/-- A PixelBuffer: exactly 64 cells of 16 bits, cell `8*y + x` for column `x`, row `y` (10_state.md R12; 20_memory.md R31;
DEDUCED, safe: log 19). -/
abbrev Buffer := Vector Color16 64

/-- The six orientations, in the order of their codes 0 to 5 (10_state.md R14). -/
inductive Orientation
  | identity
  | rot90
  | rot180
  | rot270
  | flipH
  | flipV
  deriving DecidableEq, Repr

/-- A font: its geometry and its 95 glyph words (44_glyph.md R131). -/
structure Font where
  w : Byte
  h : Byte
  glyphs : GlyphTable
  deriving DecidableEq, Repr

/-- A scroll in flight (10_state.md R17). `delay` is carried and not interpreted (92_eei_decisions.md D33; DEDUCED, unsafe: log 11);
`pos` and `count` are given no width (DESIGN CHOICE, safe: log 15). -/
structure ScrollRun where
  cols : List Byte
  pos : Nat
  color : Color16
  delay : Word
  count : Nat
  deriving DecidableEq, Repr

/-- `scroll`: idle whenever the block is ready for a command (10_state.md R17). -/
inductive Scroll
  | idle
  | running (r : ScrollRun)
  deriving DecidableEq, Repr

/-- What exists only while the Display is Active: the two buffers, the rotation register and the scroll in flight
(10_state.md R12, R13, R14, R17, R24; DEDUCED, safe: log 2). -/
structure Display where
  back : Buffer
  front : Buffer
  rot : Orientation
  scroll : Scroll
  deriving DecidableEq, Repr

/-- `dstate`'s three values (10_state.md R11). -/
inductive DState
  | uninitialized
  | active
  | released
  deriving DecidableEq, Repr

/-- The life cycle with what each stage holds: outside Active the buffers, `rot` and a scroll have no value, so none is
there to be read (10_state.md R24: "may therefore represent them as absent"; DEDUCED, safe: log 2). -/
inductive Life
  | uninitialized
  | active (d : Display)
  | released
  deriving DecidableEq, Repr

/-- The platform's answer to an allocation (10_state.md R18b). -/
inductive AllocAnswer
  | ok
  | fail
  deriving DecidableEq, Repr

/-- What the outside does before one step (10_state.md R18, R19): the reset event, or new levels on the two inputs together
with the command words the host sends then. -/
inductive Input
  | reset
  | drive (cancel : Bool) (alloc : AllocAnswer) (words : List Word)
  deriving DecidableEq, Repr

/-- The block's seven state elements (`life` holds `dstate`, `back`, `front`, `rot` and `scroll`), then the model's own
fields: the two streams, the two input levels and the inputs to come (DESIGN CHOICE, safe: log 1). -/
structure State where
  /-- `dstate`, and while Active `back`, `front`, `rot`, `scroll` (10_state.md R11 to R14, R17). -/
  life : Life
  /-- `dfont.glyph`, constant; `dfont.w = 5` and `dfont.h = 8` are `State.dfont`'s (10_state.md R15; DEDUCED, safe: log 4). -/
  dfontGlyphs : GlyphTable
  /-- `ufont`: `none` is `ufont.valid = 0`, when its other fields have no value (10_state.md R16; DEDUCED, safe: log 3). -/
  ufont : Option Font
  /-- The level on the input `cancel` (10_state.md R18a; DESIGN CHOICE, unsafe: log 5). -/
  cancel : Bool
  /-- The answer `ALLOC` the platform gives (10_state.md R18b; DESIGN CHOICE, unsafe: log 6). -/
  alloc : AllocAnswer
  /-- Command words sent and not yet taken (10_state.md R19). -/
  cmd : List Word
  /-- Response words emitted so far, oldest first (10_state.md R19; DESIGN CHOICE, unsafe: log 20). -/
  rsp : List Word
  /-- The inputs to come, one read by each step; when there is none left the levels stay (DESIGN CHOICE, safe: log 1). -/
  inputs : List Input
  deriving DecidableEq, Repr

/-- `dstate` as the life cycle's name alone (10_state.md R11). -/
def State.dstate (s : State) : DState :=
  match s.life with
  | .uninitialized => .uninitialized
  | .active _ => .active
  | .released => .released

/-- The buffers and `rot`, where they have a value (10_state.md R24). -/
def State.display (s : State) : Option Display :=
  match s.life with
  | .active d => some d
  | .uninitialized => none
  | .released => none

/-- `scroll`: idle outside Active, since it exists only while a `SCROLL` executes (10_state.md R17). -/
def State.scroll (s : State) : Scroll :=
  match s.life with
  | .active d => d.scroll
  | .uninitialized => .idle
  | .released => .idle

/-- `dfont`, the built-in font (10_state.md R15). -/
def State.dfont (s : State) : Font := { w := builtinWidth, h := builtinHeight, glyphs := s.dfontGlyphs }

/-- Why the machine has no next state. -/
inductive Fault
  /-- Raised by `step` alone: the command stream ends inside a packet and no input is left that could bring the missing
  words, the one case the spec calls `stuck` (70_reset_and_hazards.md R189; U24). SAFE: no claim follows from it. -/
  | truncatedPacket
  deriving DecidableEq, Repr

/-- Why an instruction has no meaning. -/
inductive Refusal
  /-- Raised by an arm of `exec` whose instruction has no meaning yet; no arm does now. SAFE: no claim follows from it. -/
  | notModelled (mnemonic : String)
  deriving DecidableEq, Repr

/-- The block right after the reset event (10_state.md R23; 70_reset_and_hazards.md R176): Uninitialized, no user font, waiting
for a header. `DEFAULT_GLYPHS` is the open constant (DEDUCED, safe: log 4). The streams are empty; the levels `cancel = 0` and `ALLOC = ok` and the
empty list of inputs are DESIGN CHOICES on what the spec calls inputs (logs 1, 5, 6). -/
def State.reset : State where
  life := .uninitialized
  dfontGlyphs := Config.defaultGlyphs
  ufont := none
  cancel := false
  alloc := .ok
  cmd := []
  rsp := []
  inputs := []

end Sys2Proof.Machine
end

