-- ==== Sys2Proof/Machine/Flags.lean ====
section
/-! DEFINITION. The block has no flags, condition codes or status register (10_state.md R21): what a command leaves behind in
their place is the `STATUS` byte of its response, whose twelve values and codes are here (60_exceptions.md R151). -/

namespace Sys2Proof.Machine

/-- The twelve statuses of 60_exceptions.md R151. `driverCallFailed` is numbered and never produced (R170). -/
inductive Status
  | ok
  | alreadyActive
  | outOfRange
  | lengthMismatch
  | invalidDimensions
  | unsupportedChar
  | allocationFailed
  | driverCallFailed
  | notActive
  | badCommand
  | invalidFont
  | cancelled
  deriving DecidableEq, Repr

/-- The `code` column of 60_exceptions.md R151. -/
def statusCode : Status → Byte
  | .ok => 0
  | .alreadyActive => 1
  | .outOfRange => 2
  | .lengthMismatch => 3
  | .invalidDimensions => 4
  | .unsupportedChar => 5
  | .allocationFailed => 6
  | .driverCallFailed => 7
  | .notActive => 8
  | .badCommand => 9
  | .invalidFont => 10
  | .cancelled => 11

end Sys2Proof.Machine
end

