-- ==== Sys2Proof/Machine/Operands.lean ====
section
/-! DEFINITION. What an operand selects: a buffer, a cell, an orientation, a font, a glyph. Each operand that the spec checks
answers the status of its check (60_exceptions.md R159, step 4 and 5). -/

namespace Sys2Proof.Machine

/-! ### Cells and coordinates (20_memory.md R31) -/

/-- The cell `(y << 3) | x`, which equals `8*y + x`, of column `x`, row `y`. -/
def cellOf (x y : Fin 8) : Fin 64 := ⟨8 * y.val + x.val, by omega⟩

/-- The column of a cell, `i[2:0]`. -/
def colOf (i : Fin 64) : Fin 8 := ⟨i.val % 8, by omega⟩

/-- The row of a cell, `i[5:3]`. -/
def rowOf (i : Fin 64) : Fin 8 := ⟨i.val / 8, by omega⟩

/-- `BufIndex` (41_pixelbuffer.md R90): the check every coordinate goes through; nothing is reduced modulo 8. -/
def bufIndex (x y : Byte) : Except Status (Fin 64) :=
  if h : x.toNat ≤ 7 ∧ y.toNat ≤ 7 then
    .ok (cellOf ⟨x.toNat, by omega⟩ ⟨y.toNat, by omega⟩)
  else .error .outOfRange

/-- The buffer that the selector `B` names (43_display.md R116). -/
def selectBuffer (d : Display) : BufSel → Buffer
  | .back => d.back
  | .front => d.front

/-! ### Orientations (10_state.md R14) -/

/-- The orientation of a code; codes above 5 are refused (42_rotation.md R104). -/
def orientationOf (o : Byte) : Except Status Orientation :=
  match o.toNat with
  | 0 => .ok .identity
  | 1 => .ok .rot90
  | 2 => .ok .rot180
  | 3 => .ok .rot270
  | 4 => .ok .flipH
  | 5 => .ok .flipV
  | _ => .error .outOfRange

/-! ### Fonts and characters (44_glyph.md R131 to R134) -/

/-- The table index of a printable character, `ch - 0x20`, tested on the whole 32-bit operand (44_glyph.md R131, R132). -/
def glyphIndex (ch : Word) : Option (Fin 95) :=
  if h : 0x20 ≤ ch.toNat ∧ ch.toNat ≤ 0x7E then some ⟨ch.toNat - 0x20, by omega⟩ else none

/-- `SelectFont` (44_glyph.md R134). -/
def selectFont (s : State) : FontSel → Except Status Font
  | .default => .ok s.dfont
  | .user =>
    match s.ufont with
    | some f => .ok f
    | none => .error .invalidFont

/-- `GlyphBit` (44_glyph.md R133) of a glyph word already looked up: the row stride is the width. -/
def glyphBit (f : Font) (g : GlyphWord) (row col : Nat) : Bool :=
  g.getLsbD (f.w.toNat * f.h.toNat - row * f.w.toNat - col - 1)

end Sys2Proof.Machine
end

