-- ==== Sys2Proof/Machine/Ops.lean ====
section
/-! DEFINITION. The operations every command is built from: answering and raising (30_encoding.md R54; 60_exceptions.md R150), the
life-cycle check (R157), the pixel buffer primitives (41_pixelbuffer.md), the rotation transform and the present action
(42_rotation.md R100 to R103), and what happens around a command: the inputs, the reset event, a malformed packet. -/

namespace Sys2Proof.Machine

/-- How a command or a step ends. -/
abbrev Out := Host.Outcome State Fault Refusal

/-! ### Responses and statuses -/

/-- A response header: `OPC` copied, `STATUS`, `RLEN` (30_encoding.md R54). -/
def responseHeader (opc : Byte) (st : Status) (rlen : Nat) : Word := opc ++ statusCode st ++ BitVec.ofNat 16 rlen

/-- Emit one response packet, header first (30_encoding.md R54). -/
def respond (opc : Byte) (st : Status) (results : List Word) (s : State) : State :=
  { s with rsp := s.rsp ++ responseHeader opc st results.length :: results }

/-- `raise S`, the whole of the block's exception entry (60_exceptions.md R150): the response carries the status and no result,
no state element is written, and the next command is taken as usual. There is nothing to return from (R150, R162). -/
def raiseStatus (opc : Byte) (st : Status) (s : State) : State := respond opc st [] s

/-- What a command's pseudocode comes to: a status it raises, or the state it writes and its result words (00_scope.md R8). -/
abbrev Answer := Except Status (State × List Word)

/-- End a command (60_exceptions.md R150): a raised status leaves the state the command found, and `return OK` keeps what it wrote. -/
def finish (op : Op) (s : State) (a : Answer) : Out :=
  match a with
  | .ok (t, results) => .next (respond op.opc .ok results t)
  | .error st => .next (raiseStatus op.opc st s)

/-- `if dstate != Active: raise NotActive` (60_exceptions.md R157). -/
def needActive (s : State) : Except Status Display :=
  match s.life with
  | .active d => .ok d
  | .uninitialized => .error .notActive
  | .released => .error .notActive

/-- Write the Display's elements, all at once (20_memory.md R38; DEDUCED, unsafe: log 21). -/
def setDisplay (s : State) (d : Display) : State := { s with life := .active d }

/-! ### Pixel buffer primitives (41_pixelbuffer.md) -/

/-- `BufGet` (R91). -/
def bufGet (buf : Buffer) (x y : Byte) : Except Status Color16 := do
  let i ← bufIndex x y
  return buf[i]

/-- `BufSet` (R92). -/
def bufSet (buf : Buffer) (x y : Byte) (c : Color16) : Except Status Buffer := do
  let i ← bufIndex x y
  return buf.set i c

/-- `BufFill` (R93). -/
def bufFill (c : Color16) : Buffer := Vector.replicate 64 c

/-- `BufCopy` (R94): what the destination holds afterwards. -/
def bufCopy (src : Buffer) : Buffer := src

/-- `BufReadAll` (R95): the 64 cells, cell 0 first. -/
def bufReadAll (buf : Buffer) : List Color16 := buf.toList

/-- `BufWriteAll` (R96): what the buffer holds afterwards; the length is checked first. -/
def bufWriteAll (values : List Color16) : Except Status Buffer :=
  if h : values.length = 64 then .ok ⟨values.toArray, by simpa using h⟩ else .error .lengthMismatch

/-! ### Rotation (42_rotation.md R100 to R103) -/

/-- `RotIndex` (R100): the destination cell of the source pixel at column `x`, row `y`; `7 - x` is `x.rev`. -/
def rotIndex (o : Orientation) (x y : Fin 8) : Fin 64 :=
  match o with
  | .identity => cellOf x y
  | .rot90 => cellOf y.rev x
  | .rot180 => cellOf x.rev y.rev
  | .rot270 => cellOf y x.rev
  | .flipH => cellOf x.rev y
  | .flipV => cellOf x y.rev

/-- The source cell that the destination column `u`, row `v` reads (R102). -/
def rotSource (o : Orientation) (u v : Fin 8) : Fin 64 :=
  match o with
  | .identity => cellOf u v
  | .rot90 => cellOf v u.rev
  | .rot180 => cellOf u.rev v.rev
  | .rot270 => cellOf v.rev u
  | .flipH => cellOf u.rev v
  | .flipV => cellOf u v.rev

/-- `RotApply` (R101), built cell by cell as R102 writes it. -/
def rotApply (o : Orientation) (src : Buffer) : Buffer := Vector.ofFn fun i => src[rotSource o (colOf i) (rowOf i)]

/-- `DoPresent` (R103): the only place `front` changes; it starts from `back` and cannot fail. -/
def doPresent (d : Display) : Display :=
  { d with front := if d.rot = .identity then bufCopy d.back else rotApply d.rot d.back }

/-- `if R == 1: DoPresent()` (42_rotation.md R104; 43_display.md R123). -/
def presentIf (redraw : Bool) (d : Display) : Display := if redraw then doPresent d else d

/-! ### Around a command -/

/-- The answer to a malformed packet (30_encoding.md R58; 60_exceptions.md R156): `OPC` copied even when it selects nothing. -/
def badCommand (h : Word) (s : State) : State := raiseStatus (opcField h) .badCommand s

/-- The reset event (70_reset_and_hazards.md R176): every element as after reset, a running command abandoned without a response,
received words forgotten (DEDUCED, unsafe: log 7). The responses already emitted, the input levels and the inputs to come are not the block's. -/
def resetEvent (s : State) : State := { s with life := .uninitialized, ufont := none, cmd := [] }

/-- Is the reset event what the outside does now? -/
def resetPending (s : State) : Bool :=
  match s.inputs with
  | .reset :: _ => true
  | .drive _ _ _ :: _ => false
  | [] => false

/-- Take the input of this step: the levels change and the words sent join the command stream; with no input left the levels
stay as they are (DESIGN CHOICE, safe: log 1). -/
def takeInput (s : State) : State :=
  match s.inputs with
  | .reset :: rest => { s with inputs := rest }
  | .drive cancel alloc words :: rest => { s with inputs := rest, cancel := cancel, alloc := alloc, cmd := s.cmd ++ words }
  | [] => s

/-- A header without all its payload (70_reset_and_hazards.md R189): the block waits while further words can still arrive, and is
stuck when none can (DEDUCED, safe: log 9). -/
def awaitPayload (s : State) : Out := if s.inputs = [] then .fault .truncatedPacket else .next s

end Sys2Proof.Machine
end

