-- ==== Sys2Proof/Machine/Codec.lean ====
section
/-! DEFINITION. Unit 1, the colour converter (40_colorcodec.md): the four pure functions R80 to R83 and the four commands R84 to R87.
The commands read and write no state element and need no Active Display. -/

namespace Sys2Proof.Machine

/-- `pack565` (R80): truncation only, red in bits 15:11, green in 10:5, blue in 4:0. -/
def pack565 (r g b : Byte) : Color16 := r.extractLsb' 3 5 ++ g.extractLsb' 2 6 ++ b.extractLsb' 3 5

/-- `pack565raw` (R81): unmasked shifts and OR in 32 bits, cut to 16; out-of-range bits bleed into the neighbours (UNVERIFIED, unsafe: log 13). -/
def pack565raw (r5 g6 b5 : Byte) : Color16 :=
  ((r5.setWidth 32 <<< 11) ||| (g6.setWidth 32 <<< 5) ||| b5.setWidth 32).setWidth 16

/-- `unpack565` (R82): the three components, zero-extended to bytes. -/
def unpack565 (c : Color16) : Rgb :=
  { r := (c.extractLsb' 11 5).setWidth 8, g := (c.extractLsb' 5 6).setWidth 8, b := (c.extractLsb' 0 5).setWidth 8 }

/-- One component of `width` bits expanded to 8 (R83): by the formula, product first and rounded down; or by bit
replication, the other reading of U2. -/
def expandChannel (e : Expand) (width : Nat) (v : Byte) : Byte :=
  match e with
  | .formula => BitVec.ofNat 8 (v.toNat * 255 / (2 ^ width - 1))
  | .replicate => (v <<< (8 - width)) ||| (v >>> (2 * width - 8))

/-- `expand888` under either reading (U2). -/
def expand888With (e : Expand) (c : Color16) : Rgb :=
  { r := expandChannel e 5 (unpack565 c).r
    g := expandChannel e 6 (unpack565 c).g
    b := expandChannel e 5 (unpack565 c).b }

/-- `expand888` (R83), under `EXPAND` as 90_conflicts.md C1 resolves it. -/
def expand888 (c : Color16) : Rgb := expand888With Config.expand c

/-- `PACK888` (R84). -/
def execPack888 (r g b : Byte) (s : State) : Out := finish .pack888 s (.ok (s, [c16Word (pack565 r g b)]))

/-- `PACKRAW` (R85): the components are not range-checked. -/
def execPackRaw (r5 g6 b5 : Byte) (s : State) : Out := finish .packRaw s (.ok (s, [c16Word (pack565raw r5 g6 b5)]))

/-- `UNPACK565` (R86). -/
def execUnpack565 (c : Color16) (s : State) : Out := finish .unpack565 s (.ok (s, [rgbWord (unpack565 c)]))

/-- `UNPACK888` (R87). -/
def execUnpack888 (c : Color16) (s : State) : Out := finish .unpack888 s (.ok (s, [rgbWord (expand888 c)]))

end Sys2Proof.Machine
end

