-- ==== Sys2Proof/Machine/Display.lean ====
section
/-! DEFINITION. The Display's life cycle and pixel commands (43_display.md R113 to R124). -/

namespace Sys2Proof.Machine

/-- The Display a successful `INIT` makes (43_display.md R113; 10_state.md R23). -/
def freshDisplay : Display := { back := bufFill 0, front := bufFill 0, rot := .identity, scroll := .idle }

/-- `INIT` (R113): `ALLOC` is read only where the life-cycle check passes. -/
def execInit (s : State) : Out :=
  finish .init s <|
    match s.life, s.alloc with
    | .active _, _ => .error .alreadyActive
    | _, .fail => .error .allocationFailed
    | _, .ok => .ok (setDisplay s freshDisplay, [])

/-- `RELEASE` (R114): always `OK`; outside Active it changes nothing. -/
def execRelease (s : State) : Out :=
  finish .release s <|
    match s.life with
    | .active _ => .ok ({ s with life := .released }, [])
    | .uninitialized => .ok (s, [])
    | .released => .ok (s, [])

/-- `GETPIX` (R116). -/
def execGetPix (sel : BufSel) (x y : Byte) (s : State) : Out :=
  finish .getPix s do
    let d ← needActive s
    let c ← bufGet (selectBuffer d sel) x y
    return (s, [rgbWord (expand888 c)])

/-- `GETPIXRAW` (R117). -/
def execGetPixRaw (sel : BufSel) (x y : Byte) (s : State) : Out :=
  finish .getPixRaw s do
    let d ← needActive s
    let c ← bufGet (selectBuffer d sel) x y
    return (s, [rgbWord (unpack565 c)])

/-- `GETALLRAW` (R118): 64 words, word `i` is cell `i`. -/
def execGetAllRaw (sel : BufSel) (s : State) : Out :=
  finish .getAllRaw s do
    let d ← needActive s
    return (s, (bufReadAll (selectBuffer d sel)).map c16Word)

/-- `SETPIX` (R119). -/
def execSetPix (x y r g b : Byte) (s : State) : Out :=
  finish .setPix s do
    let d ← needActive s
    let back ← bufSet d.back x y (pack565 r g b)
    return (setDisplay s { d with back := back }, [])

/-- `SETPIXRAW` (R120): only the coordinates are checked. -/
def execSetPixRaw (x y r5 g6 b5 : Byte) (s : State) : Out :=
  finish .setPixRaw s do
    let d ← needActive s
    let back ← bufSet d.back x y (pack565raw r5 g6 b5)
    return (setDisplay s { d with back := back }, [])

/-- `SETALLRAW` (R121). -/
def execSetAllRaw (values : List Color16) (s : State) : Out :=
  finish .setAllRaw s do
    let d ← needActive s
    let back ← bufWriteAll values
    return (setDisplay s { d with back := back }, [])

/-- `FILL` (R122): does not present. -/
def execFill (c : Color16) (s : State) : Out :=
  finish .fill s do
    let d ← needActive s
    return (setDisplay s { d with back := bufFill c }, [])

/-- `CLEAR` (R123). -/
def execClear (redraw : Bool) (s : State) : Out :=
  finish .clear s do
    let d ← needActive s
    return (setDisplay s (presentIf redraw { d with back := bufFill 0 }), [])

/-- The pixels of a bitmap converted and laid out row-major, if it is 8 by 8 (R124). The decoder has checked that there are
`w * h` of them (30_encoding.md R58e), so with `w = h = 8` there are 64; any other number is no 8 by 8 bitmap either. -/
def bitmapBuffer (w h : Byte) (pixels : List Rgb) : Except Status Buffer :=
  if w = 8 ∧ h = 8 then
    match bufWriteAll (pixels.map fun p => pack565 p.r p.g p.b) with
    | .ok buf => .ok buf
    | .error _ => .error .invalidDimensions
  else .error .invalidDimensions

/-- `DRAWBITMAP` (R124): does not present. -/
def execDrawBitmap (w h : Byte) (pixels : List Rgb) (s : State) : Out :=
  finish .drawBitmap s do
    let d ← needActive s
    let back ← bitmapBuffer w h pixels
    return (setDisplay s { d with back := back }, [])

end Sys2Proof.Machine
end

