-- ==== Sys2Proof/Machine/Glyph.lean ====
section
/-! DEFINITION. Unit 3, the glyph blitter (44_glyph.md): `GLYPHBITS`, `LOADFONT`, `DRAWLETTER`, and `SCROLL` with its column
assembly, its window and its frames. -/

namespace Sys2Proof.Machine

/-! ### Fonts -/

/-- `Glyph` (R132) of a character operand, or `UnsupportedChar` (R135). -/
def lookUpGlyph (f : Font) (ch : Word) : Except Status GlyphWord :=
  match glyphIndex ch with
  | some k => .ok f.glyphs[k]
  | none => .error .unsupportedChar

/-- `GLYPHBITS` (R135): the word as stored, high half first; needs no Active Display. -/
def execGlyphBits (sel : FontSel) (ch : Word) (s : State) : Out :=
  finish .glyphBits s do
    let f ← selectFont s sel
    let g ← lookUpGlyph f ch
    return (s, [hiWord g, loWord g])

/-- `LOADFONT` (R136): the whole of `ufont` or none of it; needs no Active Display. -/
def execLoadFont (w h : Byte) (glyphs : GlyphTable) (s : State) : Out :=
  finish .loadFont s <|
    if 64 < w.toNat * h.toNat then .error .invalidFont
    else .ok ({ s with ufont := some { w := w, h := h, glyphs := glyphs } }, [])

/-! ### One letter -/

/-- `back` after the glyph `g` is drawn in colour `c`: the font's `w` by `h` rectangle at cell 0, every other cell as before (R137). -/
def drawGlyph (f : Font) (g : GlyphWord) (c : Color16) (back : Buffer) : Buffer :=
  Vector.ofFn fun i =>
    if (rowOf i).val < f.h.toNat ∧ (colOf i).val < f.w.toNat then
      if glyphBit f g (rowOf i).val (colOf i).val then c else 0
    else back[i]

/-- The glyph `DRAWLETTER` draws: none for a non-printable character and none for the space (R137; 90_conflicts.md C2). -/
def letterIndex (ch : Word) : Option (Fin 95) := if ch = 0x20 then none else glyphIndex ch

/-- `back` after `DRAWLETTER`: cleared where there is no letter to draw, before the font's size is looked at; a font wider or
taller than the grid is refused (R137, R138; DEDUCED, unsafe: log 16). -/
def letterBuffer (f : Font) (ch : Word) (c : Color16) (back : Buffer) : Except Status Buffer :=
  match letterIndex ch with
  | none => .ok (bufFill 0)
  | some k =>
    if 8 < f.w.toNat ∨ 8 < f.h.toNat then .error .outOfRange
    else .ok (drawGlyph f f.glyphs[k] c back)

/-- `DRAWLETTER` (R137): does not present. -/
def execDrawLetter (sel : FontSel) (ch : Word) (c : Color16) (s : State) : Out :=
  finish .drawLetter s do
    let d ← needActive s
    let f ← selectFont s sel
    let back ← letterBuffer f ch c d.back
    return (setDisplay s { d with back := back }, [])

/-! ### A scrolling message -/

/-- One column of a glyph: row `l` is bit `7 - l` (R142; 20_memory.md R33). -/
def glyphColumn (f : Font) (g : GlyphWord) (k : Nat) : Byte :=
  (List.range f.h.toNat).foldl (fun v l => v ||| (BitVec.ofBool (glyphBit f g l k)).setWidth 8 <<< (7 - l)) 0

/-- The columns of a glyph, left to right (R142). -/
def glyphColumns (f : Font) (g : GlyphWord) : List Byte := (List.range f.w.toNat).map (glyphColumn f g)

/-- The columns of a message: one blank column between two printable characters, nothing for a character without a glyph (R142).
`first` says that no glyph has been laid down yet. -/
def messageColumns (f : Font) (first : Bool) : List Word → List Byte
  | [] => []
  | ch :: rest =>
    match glyphIndex ch with
    | none => messageColumns f first rest
    | some k => (if first then [] else [0]) ++ glyphColumns f f.glyphs[k] ++ messageColumns f false rest

/-- `BuildColumns` (R142): eight blank columns at each end (UNVERIFIED, unsafe: log 18, on a test vector that differs). -/
def buildColumns (f : Font) (msg : List Word) : List Byte :=
  List.replicate 8 0 ++ messageColumns f true msg ++ List.replicate 8 0

/-- `DrawWindow` (R143): what `back` holds afterwards; it was cleared first, so every cell is `c` or 0. -/
def drawWindow (cols : List Byte) (pos : Nat) (c : Color16) : Buffer :=
  Vector.ofFn fun i =>
    if (cols.getD (pos + (colOf i).val) 0).getLsbD (7 - (rowOf i).val) then c else 0

/-- `SCROLL`, up to the frame loop (R140, R141, R142): the checks, then the columns; the scroll is then in flight and no
response is sent yet. The frames are the steps of `scrollFrame` (70_reset_and_hazards.md R188; DESIGN CHOICE, safe: log 10). -/
def startScroll (sel : FontSel) (c : Color16) (delay : Word) (msg : List Word) (s : State) : Except Status State := do
  let d ← needActive s
  let f ← selectFont s sel
  let r : ScrollRun := { cols := buildColumns f msg, pos := 0, color := c, delay := delay, count := 0 }
  if 8 < f.h.toNat then .error .outOfRange else .ok (setDisplay s { d with scroll := .running r })

/-- `SCROLL` (R140). -/
def execScroll (sel : FontSel) (c : Color16) (delay : Word) (msg : List Word) (s : State) : Out :=
  match startScroll sel c delay msg s with
  | .ok t => .next t
  | .error st => .next (raiseStatus Op.scroll.opc st s)

/-- The end of a `SCROLL`: idle again, and the response with the count of frames presented (R140, R145). -/
def endScroll (st : Status) (d : Display) (count : Nat) (s : State) : State :=
  respond Op.scroll.opc st [BitVec.ofNat 32 count] (setDisplay s { d with scroll := .idle })

/-- Is there a window left, `pos <= total - 8` (R140)? -/
def hasWindow (r : ScrollRun) : Bool := decide (r.pos + 8 ≤ r.cols.length)

/-- After a frame: on to the next window, or the end with `OK` (R140). -/
def nextWindow (d : Display) (r : ScrollRun) (s : State) : State :=
  if hasWindow r then setDisplay s { d with scroll := .running r } else endScroll .ok d r.count s

/-- One pass of `SCROLL`'s frame loop (R140): `cancel` is read before the window is drawn (R145), then clear, draw, present, count.
The wait after a frame is not state (R146; DEDUCED, unsafe: log 11). -/
def scrollFrame (d : Display) (r : ScrollRun) (s : State) : State :=
  if hasWindow r then
    if s.cancel then endScroll .cancelled d r.count s
    else nextWindow (doPresent { d with back := drawWindow r.cols r.pos r.color })
      { r with pos := r.pos + 1, count := r.count + 1 } s
  else endScroll .ok d r.count s

end Sys2Proof.Machine
end

