-- ==== Sys2Proof/Machine/Rotation.lean ====
section
/-! DEFINITION. Unit 2, the rotation engine's two commands (42_rotation.md R104, R105). -/

namespace Sys2Proof.Machine

/-- `SETROT` (R104): all six codes accepted; with redraw the new orientation is the one presented. -/
def execSetRot (redraw : Bool) (o : Byte) (s : State) : Out :=
  finish .setRot s do
    let d ← needActive s
    let rot ← orientationOf o
    return (setDisplay s (presentIf redraw { d with rot := rot }), [])

/-- `PRESENT` (R105). -/
def execPresent (s : State) : Out :=
  finish .present s do
    let d ← needActive s
    return (setDisplay s (doPresent d), [])

end Sys2Proof.Machine
end

