-- ==== Sys2Proof/Machine/Dispatch.lean ====
section
/-! DEFINITION. One arm per command, each a direct call of its meaning. -/

namespace Sys2Proof.Machine

def exec (i : Instr) (s : State) : Host.Outcome State Fault Refusal :=
  match i with
  -- 40_colorcodec.md
  | .pack888 r g b => Sys2Proof.Machine.execPack888 r g b s
  | .packRaw r5 g6 b5 => Sys2Proof.Machine.execPackRaw r5 g6 b5 s
  | .unpack565 c => Sys2Proof.Machine.execUnpack565 c s
  | .unpack888 c => Sys2Proof.Machine.execUnpack888 c s
  -- 43_display.md
  | .init => Sys2Proof.Machine.execInit s
  | .release => Sys2Proof.Machine.execRelease s
  | .getPix sel x y => Sys2Proof.Machine.execGetPix sel x y s
  | .getPixRaw sel x y => Sys2Proof.Machine.execGetPixRaw sel x y s
  | .getAllRaw sel => Sys2Proof.Machine.execGetAllRaw sel s
  | .setPix x y r g b => Sys2Proof.Machine.execSetPix x y r g b s
  | .setPixRaw x y r5 g6 b5 => Sys2Proof.Machine.execSetPixRaw x y r5 g6 b5 s
  | .setAllRaw values => Sys2Proof.Machine.execSetAllRaw values s
  | .fill c => Sys2Proof.Machine.execFill c s
  | .clear redraw => Sys2Proof.Machine.execClear redraw s
  | .drawBitmap w h pixels => Sys2Proof.Machine.execDrawBitmap w h pixels s
  -- 42_rotation.md
  | .setRot redraw o => Sys2Proof.Machine.execSetRot redraw o s
  | .present => Sys2Proof.Machine.execPresent s
  -- 44_glyph.md
  | .glyphBits sel ch => Sys2Proof.Machine.execGlyphBits sel ch s
  | .loadFont w h glyphs => Sys2Proof.Machine.execLoadFont w h glyphs s
  | .drawLetter sel ch c => Sys2Proof.Machine.execDrawLetter sel ch c s
  | .scroll sel c delay msg => Sys2Proof.Machine.execScroll sel c delay msg s

end Sys2Proof.Machine
end

