-- ==== Sys2Proof/Machine/Cycle.lean ====
section
/-! DEFINITION. What the block does in one step once the step's input is taken (20_memory.md R36; 70_reset_and_hazards.md R183, R188,
R189): one frame of a scroll in flight, one whole command packet, or waiting. -/

namespace Sys2Proof.Machine

/-- A framed packet, already off the stream: its command, or `BadCommand` (30_encoding.md R57, R58). -/
def runPacket (h : Word) (payload : List Word) (s : State) : Host.Outcome State Fault Refusal :=
  match decode h payload with
  | .ok i => exec i s
  | .error _ => .next (badCommand h s)

/-- An idle block looks at the head of the command stream (30_encoding.md R52; 70_reset_and_hazards.md R189;
with no word it waits: DEDUCED, safe: log 8). -/
def takeCommand (s : State) : Host.Outcome State Fault Refusal :=
  match takePacket s.cmd with
  | .packet h payload rest => runPacket h payload { s with cmd := rest }
  | .incomplete => awaitPayload s
  | .empty => .next s

/-- What the block does once the step's input is taken: a scroll in flight occupies it (70_reset_and_hazards.md R183). -/
def advance (s : State) : Host.Outcome State Fault Refusal :=
  match s.life with
  | .active d =>
    match d.scroll with
    | .running r => .next (scrollFrame d r s)
    | .idle => takeCommand s
  | .uninitialized => takeCommand s
  | .released => takeCommand s

/-- The Display with no scroll in flight, so that the block is ready for a command. -/
def Life.idle : Life → Life
  | .active d => .active { d with scroll := .idle }
  | .uninitialized => .uninitialized
  | .released => .released

end Sys2Proof.Machine
end

