-- ==== Sys2Proof/Machine/Driver.lean ====
section
/-! DEFINITION. The driver's view of the block (20_memory.md R34, R42, R43). The driver reads `front` and only `front`, while the
Display is Active, and changes nothing; so it is a relation on the two ends of a step and not a step of its own (DESIGN CHOICE, safe: log 14). -/

namespace Sys2Proof.Machine

/-- `front`, where the driver has a buffer to read (R42). -/
def visibleFront (s : State) : Option Buffer := s.display.map Display.front

/-- `img` may be read cell by cell from the two images, in any mixture (R42, `DRIVER_SNAPSHOT = cell`). -/
def tornImage (old new img : Buffer) : Prop := ∀ i : Fin 64, img[i] = old[i] ∨ img[i] = new[i]

/-- What the driver may read while the block goes from `s` to `t`: one whole image with the snapshot `command`, any mixture of
the two with `cell`; nothing where the Display is not Active (R42). -/
def driverMaySee (snap : Snapshot) (s t : State) (img : Buffer) : Prop :=
  match visibleFront s, visibleFront t with
  | some old, some new =>
    match snap with
    | .command => img = old ∨ img = new
    | .cell => tornImage old new img
  | some old, none => img = old
  | none, some new => img = new
  | none, none => False

/-- One cell as two bytes of the driver's memory (R34): the order is the open `DRIVER_BYTE_ORDER`. -/
def cellBytes (order : ByteOrder) (c : Color16) : List Byte :=
  match order with
  | .lowByteFirst => [c.extractLsb' 0 8, c.extractLsb' 8 8]
  | .highByteFirst => [c.extractLsb' 8 8, c.extractLsb' 0 8]

/-- `raw_memory`: 64 contiguous 16-bit cells (R43), as the bytes the driver finds. -/
def rawMemory (buf : Buffer) : List Byte := buf.toList.flatMap (cellBytes Config.driverByteOrder)

end Sys2Proof.Machine
end

