-- ==== Sys2Proof/Machine/Step.lean ====
section
/-! DEFINITION. One step of the machine: the input of the step, then the reset event (70_reset_and_hazards.md R176) or what the block
does by itself. -/

namespace Sys2Proof.Machine

/-- One step. -/
def step (s : State) : Host.Outcome State Fault Refusal :=
  if resetPending s then .next (resetEvent (takeInput s)) else advance (takeInput s)

/-- `s` with the packet whose bits are `w` at the head of the command stream and nothing in the way of taking it: no scroll in
flight and no input before it. It stands for the host sending that packet (DESIGN CHOICE, safe: log 17). -/
def State.withFetchWord (s : State) (nbits w : Nat) : State :=
  { s with life := s.life.idle, cmd := tablePacket nbits w ++ s.cmd, inputs := [] }

end Sys2Proof.Machine
end

