-- ==== Sys2Proof/Safety.lean ====
section
/-! DEFINITION. The terms the claims are stated in: the invariant of the machine, and the spec's own formulas and tables written
as plain arithmetic, apart from the definitions the machine computes with. -/

namespace Sys2Proof.Safety

open Sys2Proof.Machine

/-! ### The invariant -/

/-- A loaded font keeps `w * h <= 64` (10_state.md R16). -/
def fontFits (f : Font) : Bool := decide (f.w.toNat * f.h.toNat ≤ 64)

/-- A scroll in flight has a window left to show, has presented one frame for each window passed, ends in eight blank columns, and
its columns are few enough for the 32-bit count (10_state.md R17; 44_glyph.md R140, R142). -/
def scrollInRange (r : ScrollRun) : Bool :=
  decide (r.pos + 8 ≤ r.cols.length) && decide (r.count = r.pos) &&
  decide (r.cols.drop (r.cols.length - 8) = List.replicate 8 0) && decide (r.cols.length < 2 ^ 32)

/-- The invariant every step keeps. -/
def inv (s : State) : Bool :=
  (match s.ufont with | some f => fontFits f | none => true) &&
  (match s.scroll with | .running r => scrollInRange r | .idle => true)

/-! ### What a command's whole effect is -/

/-- The command's whole effect is to emit these response words: every state element, input and stream is otherwise as before. -/
def answersOnly (i : Instr) (s : State) (words : List Word) : Prop :=
  exec i s = .next { s with rsp := s.rsp ++ words }

/-- The command writes the Display as given, emits these response words, and changes nothing else. -/
def answersWith (i : Instr) (s : State) (d : Display) (words : List Word) : Prop :=
  exec i s = .next { s with life := .active d, rsp := s.rsp ++ words }

/-! ### The spec's formulas as arithmetic -/

/-- `(r >> 3, g >> 2, b >> 3)` laid out 5/6/5 (40_colorcodec.md R80). -/
def packedNat (r g b : Byte) : Nat := r.toNat / 8 * 2048 + g.toNat / 4 * 32 + b.toNat / 8

/-- Bit `k` of the unmasked OR of the three shifted components (40_colorcodec.md R81). -/
def rawBit (r5 g6 b5 : Byte) (k : Nat) : Bool :=
  (decide (11 ≤ k) && r5.getLsbD (k - 11)) || (decide (5 ≤ k) && g6.getLsbD (k - 5)) || b5.getLsbD k

/-- `{0x00, r5, g6, b5}` of a Color16 (40_colorcodec.md R82, R86). -/
def componentsNat (c : Color16) : Nat := c.toNat / 2048 * 65536 + c.toNat / 32 % 64 * 256 + c.toNat % 32

/-- `{0x00, r8, g8, b8}` of a Color16 (40_colorcodec.md R83, R87). -/
def expandedNat (c : Color16) : Nat :=
  c.toNat / 2048 * 255 / 31 * 65536 + c.toNat / 32 % 64 * 255 / 63 * 256 + c.toNat % 32 * 255 / 31

/-- The `RotIndex` column of 42_rotation.md R100: the destination cell of the source pixel at column `x`, row `y`. -/
def destinationNat (o : Orientation) (x y : Nat) : Nat :=
  match o with
  | .identity => y <<< 3 ||| x
  | .rot90 => x <<< 3 ||| (7 - y)
  | .rot180 => (7 - y) <<< 3 ||| (7 - x)
  | .rot270 => (7 - x) <<< 3 ||| y
  | .flipH => y <<< 3 ||| (7 - x)
  | .flipV => (7 - y) <<< 3 ||| x

/-- `dst` is `RotApply(o, src)`: each source pixel is at its destination cell (42_rotation.md R101). -/
def reordered (o : Orientation) (src dst : Buffer) : Prop :=
  ∀ x y : Fin 8, dst[destinationNat o x.val y.val]? = src[y.val <<< 3 ||| x.val]?

/-- The orientation of a code (10_state.md R14). -/
def orientationCode : Orientation → Nat
  | .identity => 0
  | .rot90 => 1
  | .rot180 => 2
  | .rot270 => 3
  | .flipH => 4
  | .flipV => 5

/-- The pixel of glyph word `g` at row `row`, column `col` of a font `w` by `h` (44_glyph.md R133). -/
def pixelLit (f : Font) (g : GlyphWord) (row col : Nat) : Bool :=
  g.toNat / 2 ^ (f.w.toNat * f.h.toNat - row * f.w.toNat - col - 1) % 2 == 1

/-- A printable character: 0x20 to 0x7E on the whole operand (44_glyph.md R131). -/
def printable (ch : Word) : Bool := decide (0x20 ≤ ch.toNat) && decide (ch.toNat ≤ 0x7E)

/-- The columns `BuildColumns` lays down for `p` printable characters in a font `w` wide (44_glyph.md R142). -/
def totalColumns (w p : Nat) : Nat := if p = 0 then 16 else 16 + p * (w + 1) - 1

/-- The font a selector names, where it names one (44_glyph.md R134). -/
def selectedFont (s : State) : FontSel → Option Font
  | .default => some { w := 5, h := 8, glyphs := s.dfontGlyphs }
  | .user => s.ufont

/-- The buffer a selector names (43_display.md R116). -/
def selectedBuffer (d : Display) : BufSel → Buffer
  | .front => d.front
  | .back => d.back

/-! ### The spec's tables -/

/-- The 13 commands of 60_exceptions.md R157. -/
def needsDisplay : Op → Bool
  | .getPix | .getPixRaw | .getAllRaw | .setPix | .setPixRaw | .setAllRaw | .fill | .clear | .drawBitmap | .setRot
  | .present | .drawLetter | .scroll => true
  | .pack888 | .packRaw | .unpack565 | .unpack888 | .init | .release | .glyphBits | .loadFont => false

/-- The commands that check a coordinate, an orientation code or a font's size (60_exceptions.md R160, the `OutOfRange` column). -/
def checksRange : Op → Bool
  | .getPix | .getPixRaw | .setPix | .setPixRaw | .setRot | .drawLetter | .scroll => true
  | .pack888 | .packRaw | .unpack565 | .unpack888 | .init | .release | .getAllRaw | .setAllRaw | .fill | .clear | .drawBitmap
  | .present | .glyphBits | .loadFont => false

/-- The commands that look at a font's slot or geometry (60_exceptions.md R158, R160). -/
def checksFont : Op → Bool
  | .glyphBits | .loadFont | .drawLetter | .scroll => true
  | .pack888 | .packRaw | .unpack565 | .unpack888 | .init | .release | .getPix | .getPixRaw | .getAllRaw | .setPix | .setPixRaw
  | .setAllRaw | .fill | .clear | .drawBitmap | .setRot | .present => false

/-- The table of 60_exceptions.md R160, less `BadCommand`, which no decoded command raises, and `Cancelled`, which a frame raises. -/
def mayRaise (op : Op) (st : Status) : Bool :=
  match st with
  | .alreadyActive => op == .init
  | .allocationFailed => op == .init
  | .outOfRange => checksRange op
  | .lengthMismatch => op == .setAllRaw
  | .invalidDimensions => op == .drawBitmap
  | .unsupportedChar => op == .glyphBits
  | .invalidFont => checksFont op
  | .notActive => needsDisplay op
  | .ok | .driverCallFailed | .badCommand | .cancelled => false

/-- The `RLEN` column of 30_encoding.md R56, for status `OK`. -/
def resultLength : Op → Nat
  | .pack888 | .packRaw | .unpack565 | .unpack888 | .getPix | .getPixRaw | .scroll => 1
  | .getAllRaw => 64
  | .glyphBits => 2
  | .init | .release | .setPix | .setPixRaw | .setAllRaw | .fill | .clear | .drawBitmap | .setRot | .present
  | .loadFont | .drawLetter => 0

/-- A response header from an opcode, a status code and a length, as numbers (30_encoding.md R54). -/
def headerNat (opc status rlen : Nat) : Word := BitVec.ofNat 32 (opc * 2 ^ 24 + status * 2 ^ 16 + rlen)

/-- A `W_RGB` word as a number (30_encoding.md R53). -/
def rgbNat (r g b : Byte) : Word := BitVec.ofNat 32 (r.toNat * 2 ^ 16 + g.toNat * 2 ^ 8 + b.toNat)

/-- A `W_XY` or `W_DIM` word as a number: `lo` is `x` or `w`, `hi` is `y` or `h` (30_encoding.md R53). -/
def pairNat (lo hi : Byte) : Word := BitVec.ofNat 32 (hi.toNat * 2 ^ 8 + lo.toNat)

/-- A `W_C16` word as a number (30_encoding.md R53). -/
def c16Nat (c : Color16) : Word := BitVec.ofNat 32 c.toNat

/-- The state elements of 10_state.md R10. -/
inductive Elem
  | dstate | back | front | rot | dfont | ufont | scroll
  deriving DecidableEq, Repr

/-- `INIT` and `RELEASE`: they make the Display and take it away, with everything in it (10_state.md R24). -/
def changesLife : Op → Bool
  | .init | .release => true
  | .pack888 | .packRaw | .unpack565 | .unpack888 | .getPix | .getPixRaw | .getAllRaw | .setPix | .setPixRaw | .setAllRaw | .fill
  | .clear | .drawBitmap | .setRot | .present | .glyphBits | .loadFont | .drawLetter | .scroll => false

/-- The commands of 10_state.md R12 that write `back` of a Display they do not make. `SCROLL` writes it in its frames. -/
def draws : Op → Bool
  | .setPix | .setPixRaw | .setAllRaw | .fill | .clear | .drawBitmap | .drawLetter => true
  | .pack888 | .packRaw | .unpack565 | .unpack888 | .init | .release | .getPix | .getPixRaw | .getAllRaw | .setRot | .present
  | .glyphBits | .loadFont | .scroll => false

/-- The forms that present (10_state.md R13). `SCROLL` presents in its frames. -/
def presents : Instr → Bool
  | .present => true
  | .clear redraw => redraw
  | .setRot redraw _ => redraw
  | .pack888 _ _ _ | .packRaw _ _ _ | .unpack565 _ | .unpack888 _ | .init | .release | .getPix _ _ _ | .getPixRaw _ _ _
  | .getAllRaw _ | .setPix _ _ _ _ _ | .setPixRaw _ _ _ _ _ | .setAllRaw _ | .fill _ | .drawBitmap _ _ _ | .glyphBits _ _
  | .loadFont _ _ _ | .drawLetter _ _ _ | .scroll _ _ _ _ => false

/-- Which commands write an element (10_state.md R11 to R17). -/
def writesElem (i : Instr) (e : Elem) : Bool :=
  match e with
  | .dstate => changesLife i.op
  | .back => changesLife i.op || draws i.op
  | .front => changesLife i.op || presents i
  | .rot => changesLife i.op || i.op == .setRot
  | .dfont => false
  | .ufont => i.op == .loadFont
  | .scroll => changesLife i.op || i.op == .scroll

/-- An element is the same in two states. -/
def sameElem (s t : State) : Elem → Prop
  | .dstate => t.dstate = s.dstate
  | .back => t.display.map Display.back = s.display.map Display.back
  | .front => t.display.map Display.front = s.display.map Display.front
  | .rot => t.display.map Display.rot = s.display.map Display.rot
  | .dfont => t.dfont = s.dfont
  | .ufont => t.ufont = s.ufont
  | .scroll => t.scroll = s.scroll

/-- The commands 20_memory.md R39 lists as reads. -/
def readsOnly : Op → Bool
  | .getPix | .getPixRaw | .getAllRaw | .glyphBits | .pack888 | .packRaw | .unpack565 | .unpack888 => true
  | .init | .release | .setPix | .setPixRaw | .setAllRaw | .fill | .clear | .drawBitmap | .setRot | .present | .loadFont
  | .drawLetter | .scroll => false

/-- The commands 20_memory.md R39 lists as idempotent writes. -/
def idempotentWrite : Op → Bool
  | .fill | .clear | .setAllRaw | .drawBitmap | .setPix | .setPixRaw | .setRot | .present | .loadFont | .drawLetter => true
  | .init | .release | .scroll | .getPix | .getPixRaw | .getAllRaw | .glyphBits | .pack888 | .packRaw | .unpack565
  | .unpack888 => false

/-! ### Malformed packets, from 30_encoding.md R56 and R58 as numbers -/

/-- The opcode map: `OPC`, whether there is a selector, and the fixed `LEN` where there is one (30_encoding.md R56). -/
def opcodeRows : List (Nat × Bool × Option Nat) :=
  [(0x01, false, some 1), (0x02, false, some 1), (0x03, false, some 1), (0x04, false, some 1),
   (0x10, false, some 0), (0x11, false, some 0), (0x12, true, some 1), (0x13, true, some 1), (0x14, true, some 0),
   (0x15, false, some 2), (0x16, false, some 2), (0x17, false, none), (0x18, false, some 1), (0x19, true, some 0),
   (0x1A, false, none), (0x20, true, some 1), (0x21, false, some 0), (0x30, true, some 1), (0x31, false, some 191),
   (0x32, true, some 2), (0x33, true, none)]

/-- How many low bits of payload word `k` of an opcode are not reserved (30_encoding.md R53, R56). -/
def usedBits (opc k : Nat) : Nat :=
  if opc = 0x01 ∨ opc = 0x02 then 24
  else if opc = 0x03 ∨ opc = 0x04 ∨ opc = 0x12 ∨ opc = 0x13 ∨ opc = 0x17 ∨ opc = 0x18 then 16
  else if opc = 0x15 ∨ opc = 0x16 ∨ opc = 0x1A then (if k = 0 then 16 else 24)
  else if opc = 0x20 then 8
  else if opc = 0x31 ∨ opc = 0x33 then (if k = 0 then 16 else 32)
  else if opc = 0x32 then (if k = 0 then 32 else 16)
  else 32

/-- The conditions (a) to (g) of 30_encoding.md R58 on a packet whose payload has the header's `LEN` words. -/
def malformedPacket (h : Word) (payload : List Word) : Prop :=
  let opc := h.toNat / 2 ^ 24
  let len := h.toNat % 2 ^ 16
  (∀ row ∈ opcodeRows, row.1 ≠ opc) ∨
  h.toNat / 2 ^ 17 % 2 ^ 7 ≠ 0 ∨
  (h.toNat / 2 ^ 16 % 2 = 1 ∧ ∃ row ∈ opcodeRows, row.1 = opc ∧ row.2.1 = false) ∨
  (∃ row ∈ opcodeRows, row.1 = opc ∧ ∃ n, row.2.2 = some n ∧ n ≠ len) ∨
  (opc = 0x1A ∧ (len = 0 ∨ ∃ dim rest, payload = dim :: rest ∧ len - 1 ≠ dim.toNat % 256 * (dim.toNat / 256 % 256))) ∨
  (opc = 0x33 ∧ len < 2) ∨
  (∃ k w, payload[k]? = some w ∧ 2 ^ usedBits opc k ≤ w.toNat)

/-! ### Two states the host cannot tell apart -/

/-- The same but perhaps for Uninitialized against Released (43_display.md R115). -/
def sameToHost (s t : State) : Prop :=
  t = { s with life := t.life } ∧ (s.life = t.life ∨ (s.dstate ≠ .active ∧ t.dstate ≠ .active))

/-- Two steps end alike, in states the host cannot tell apart. -/
def sameOutcome : Out → Out → Prop
  | .next a, .next b => sameToHost a b
  | .fault a, .fault b => a = b
  | .refused a, .refused b => a = b
  | _, _ => False

end Sys2Proof.Safety
end

