-- ==== Sys2Proof/Certificates/Slice0/Obligations.lean ====
section
/-! DEFINITION. The statements for the provers, each from a numbered rule of spec/ or, where its docstring says so, from an
inference the spec marks as its own. Headers are written as the words the host sees (30_encoding.md R54). -/

open Sys2Proof Sys2Proof.Machine Sys2Proof.Safety

/-! ### Packets -/

/-- 30_encoding.md R64's worked encodings (the spec's own derivation from R51, R53, R56), decoded. -/
def Obligations.WorkedEncodingsDecode : Prop :=
  decode 0x01000001#32 [0x00FF0000#32] = .ok (.pack888 255 0 0) ∧
  decode 0x12010001#32 [0x00000203#32] = .ok (.getPix .back 3 2) ∧
  decode 0x12000001#32 [0x00000203#32] = .ok (.getPix .front 3 2) ∧
  decode 0x15000002#32 [0x00000203#32, 0x00C86432#32] = .ok (.setPix 3 2 200 100 50) ∧
  decode 0x18000001#32 [0x000007E0#32] = .ok (.fill 0x07E0) ∧
  decode 0x19010000#32 [] = .ok (.clear true) ∧
  decode 0x20010001#32 [0x00000001#32] = .ok (.setRot true 1) ∧
  decode 0x32010002#32 [0x00000058#32, 0x000007E0#32] = .ok (.drawLetter .user 0x58 0x07E0) ∧
  decode 0x33010004#32 [0x0000FFFF#32, 0x00000064#32, 0x00000041#32, 0x00000042#32] =
    .ok (.scroll .user 0xFFFF 100 [0x41, 0x42])

/-- Every well-formed command comes back from its own packet, every operand at every value (R51, R53, R56, R61). -/
def Obligations.DecodeEncodeIsIdentity : Prop :=
  ∀ i : Instr, i.wf = true → ∀ rest : List Word,
    takePacket (encode i ++ rest) = .packet i.header i.payload rest ∧ decode i.header i.payload = .ok i

/-- A packet has at most the one meaning: what decodes is well formed and encodes back to the very same words (R57, R61). -/
def Obligations.EncodeDecodeIsIdentity : Prop :=
  ∀ (h : Word) (p : List Word) (i : Instr), decode h p = .ok i → i.wf = true ∧ encode i = h :: p

/-- 30_encoding.md R57: the command is the row whose `(H & mask) == match`, and at most one row matches. -/
def Obligations.DecodedHeaderMatchesOneRow : Prop :=
  ∀ (h : Word) (p : List Word) (i : Instr), decode h p = .ok i →
    h &&& rowMask i.op = rowMatch i.op ∧ ∀ op : Op, h &&& rowMask op = rowMatch op → op = i.op

/-- 30_encoding.md R58: a packet is refused exactly when one of the conditions (a) to (g) holds. -/
def Obligations.RefusedExactlyWhenMalformed : Prop :=
  ∀ (h : Word) (p : List Word), p.length = h.toNat % 2 ^ 16 →
    ((∃ e, decode h p = .error e) ↔ malformedPacket h p)

/-- 60_exceptions.md R156 with 30_encoding.md R52: a malformed packet, in any life-cycle state, is skipped whole and answered with `OPC`
copied, status 9 and no result, and nothing else changes. -/
def Obligations.MalformedPacketAnswersBadCommand : Prop :=
  ∀ (s : State) (h : Word) (p rest : List Word), s.inputs = [] → s.scroll = .idle →
    s.cmd = h :: (p ++ rest) → p.length = h.toNat % 2 ^ 16 → malformedPacket h p →
    step s = .next { s with cmd := rest, rsp := s.rsp ++ [headerNat (h.toNat / 2 ^ 24) 9 0] }

/-- 20_memory.md section 2 (R36): an idle block runs the command at the head of the stream, in the state with exactly its packet
taken. That a pending drive is read first in the same step, its levels set and its words appended, is the model's choice (log 1). -/
def Obligations.StepRunsTheDecodedCommand : Prop :=
  (∀ (s : State) (h : Word) (p rest : List Word) (i : Instr), s.inputs = [] → s.scroll = .idle →
    s.cmd = h :: (p ++ rest) → decode h p = .ok i → step s = exec i { s with cmd := rest }) ∧
  (∀ (s : State) (c : Bool) (a : AllocAnswer) (ws later : List Word) (ins : List Input) (h : Word) (p : List Word) (i : Instr),
    s.inputs = .drive c a ws :: ins → s.scroll = .idle → s.cmd ++ ws = h :: (p ++ later) → decode h p = .ok i →
    step s = exec i { s with inputs := ins, cancel := c, alloc := a, cmd := later })

/-- 70_reset_and_hazards.md section 5 (R189), as the model reads it: an idle block with no word steps to the same state (log 8);
inside a packet whose words have not all come it waits with no response and nothing changed while inputs remain, and stops when none
remains (log 9); a pending drive is read first in the step (log 1). The machine stops nowhere else, and refuses nothing. -/
def Obligations.StepStopsOnlyInsideATruncatedPacket : Prop :=
  (∀ s : State, s.inputs = [] → s.scroll = .idle → s.cmd = [] → step s = .next s) ∧
  (∀ (s : State) (h : Word) (tail : List Word), s.inputs = [] → s.scroll = .idle → s.cmd = h :: tail →
    tail.length < h.toNat % 2 ^ 16 → step s = .fault .truncatedPacket) ∧
  (∀ (s : State) (c : Bool) (a : AllocAnswer) (ws : List Word) (ins : List Input) (h : Word) (tail : List Word),
    s.inputs = .drive c a ws :: ins → s.scroll = .idle → s.cmd ++ ws = h :: tail → tail.length < h.toNat % 2 ^ 16 →
    (ins ≠ [] → step s = .next { s with inputs := ins, cancel := c, alloc := a, cmd := s.cmd ++ ws }) ∧
    (ins = [] → step s = .fault .truncatedPacket)) ∧
  (∀ (s : State) (f : Fault), step s = .fault f →
    s.scroll = .idle ∧ s.inputs.length ≤ 1 ∧
    ∃ h tail, (takeInput s).cmd = h :: tail ∧ tail.length < h.toNat % 2 ^ 16) ∧
  (∀ (s : State) (r : Refusal), step s ≠ .refused r)

/-! ### Reset -/

/-- 70_reset_and_hazards.md R176: the reset event, at any moment and in any state, leaves the block Uninitialized without buffers or
user font, idle, waiting for a header; no response is emitted, and a partly received packet is forgotten. -/
def Obligations.ResetEventRestoresTheBlock : Prop :=
  ∀ (s : State) (ins : List Input), s.inputs = .reset :: ins →
    ∃ t, step s = .next t ∧ t.dstate = .uninitialized ∧ t.display = none ∧ t.ufont = none ∧ t.scroll = .idle ∧
      t.dfont = { w := 5, h := 8, glyphs := s.dfontGlyphs } ∧ t.rsp = s.rsp ∧
      t.cancel = s.cancel ∧ t.alloc = s.alloc ∧ t.inputs = ins ∧
      (takePacket s.cmd = .incomplete → t.cmd = [])

/-- 10_state.md R23: the value of every element after reset, and after a successful `INIT`. -/
def Obligations.ElementsAfterResetAndInit : Prop :=
  (State.reset.dstate = .uninitialized ∧ State.reset.display = none ∧ State.reset.ufont = none ∧
    State.reset.scroll = .idle ∧ State.reset.dfont = { w := 5, h := 8, glyphs := Config.defaultGlyphs }) ∧
  (∀ s : State, s.dstate ≠ .active → s.alloc = .ok → ∃ t d, exec .init s = .next t ∧ t.dstate = .active ∧ t.display = some d ∧
    (∀ i : Fin 64, d.back[i] = 0 ∧ d.front[i] = 0) ∧ d.rot = .identity ∧ t.dfont = s.dfont ∧ t.ufont = s.ufont ∧
    t.scroll = .idle)

/-! ### Colour codec -/

/-- 40_colorcodec.md R80, R82, R83: the converter's functions are the spec's formulas, and their results stay in range. -/
def Obligations.ConverterFunctionsFollowTheFormulas : Prop :=
  (∀ r g b : Byte, (pack565 r g b).toNat = packedNat r g b) ∧
  (∀ c : Color16,
    (unpack565 c).r.toNat = c.toNat / 2048 ∧ (unpack565 c).g.toNat = c.toNat / 32 % 64 ∧ (unpack565 c).b.toNat = c.toNat % 32 ∧
    (unpack565 c).r.toNat ≤ 31 ∧ (unpack565 c).g.toNat ≤ 63 ∧ (unpack565 c).b.toNat ≤ 31) ∧
  (∀ c : Color16,
    (expand888 c).r.toNat = (unpack565 c).r.toNat * 255 / 31 ∧ (expand888 c).g.toNat = (unpack565 c).g.toNat * 255 / 63 ∧
    (expand888 c).b.toNat = (unpack565 c).b.toNat * 255 / 31)

/-- 40_colorcodec.md R84 (R80): truncation, red on top. -/
def Obligations.Pack888TruncatesAndPacks : Prop :=
  ∀ (r g b : Byte) (s : State),
    encode (.pack888 r g b) = [0x01000001#32, rgbNat r g b] ∧
    answersOnly (.pack888 r g b) s [0x01000001#32, BitVec.ofNat 32 (packedNat r g b)]

/-- 40_colorcodec.md R85 (R81): the unmasked OR cut to 16 bits; in range, the layout of R80. -/
def Obligations.PackRawOrsUnmaskedComponents : Prop :=
  ∀ (r5 g6 b5 : Byte) (s : State), encode (.packRaw r5 g6 b5) = [0x02000001#32, rgbNat r5 g6 b5] ∧ ∃ w : Word,
    answersOnly (.packRaw r5 g6 b5) s [0x02000001#32, w] ∧
    (∀ k < 16, w.getLsbD k = rawBit r5 g6 b5 k) ∧ w.toNat < 65536 ∧
    (r5.toNat ≤ 31 → g6.toNat ≤ 63 → b5.toNat ≤ 31 →
      w.toNat = r5.toNat * 2048 + g6.toNat * 32 + b5.toNat)

/-- 40_colorcodec.md R86 (R82). -/
def Obligations.Unpack565GivesTheComponents : Prop :=
  ∀ (c : Color16) (s : State),
    encode (.unpack565 c) = [0x03000001#32, c16Nat c] ∧
    answersOnly (.unpack565 c) s [0x03000001#32, BitVec.ofNat 32 (componentsNat c)]

/-- 40_colorcodec.md R87 (R83): product first, division rounded down. -/
def Obligations.Unpack888ExpandsByTheFormula : Prop :=
  ∀ (c : Color16) (s : State),
    encode (.unpack888 c) = [0x04000001#32, c16Nat c] ∧
    answersOnly (.unpack888 c) s [0x04000001#32, BitVec.ofNat 32 (expandedNat c)]

/-- 40_colorcodec.md section 3 (the spec's derivation): the round trip RGB888 to RGB565 and back moves red and blue by at most 7 and
green by at most 3, up or down. 93_implementation_defined.md U2: for both readings of the expansion table. -/
def Obligations.RoundTripLosesAtMostTheQuantum : Prop :=
  ∀ (e : Expand) (r g b : Byte),
    let v := expand888With e (pack565 r g b)
    (v.r.toNat ≤ r.toNat + 7 ∧ r.toNat ≤ v.r.toNat + 7) ∧ (v.g.toNat ≤ g.toNat + 3 ∧ g.toNat ≤ v.g.toNat + 3) ∧
    (v.b.toNat ≤ b.toNat + 7 ∧ b.toNat ≤ v.b.toNat + 7)

/-- 40_colorcodec.md section 3 (the spec's derivation) and U2: re-encoding an expanded colour gives it back, for every colour
and both readings of the expansion table. -/
def Obligations.PackOfExpandIsIdentity : Prop :=
  ∀ (e : Expand) (c : Color16),
    pack565 (expand888With e c).r (expand888With e c).g (expand888With e c).b = c

/-! ### Pixel buffer and font functions -/

/-- 41_pixelbuffer.md R90 to R96: the bounds check on both coordinates, one cell read, one cell written and the other 63 kept, the fill, the
copy, the 64 cells in order, and the length check before the bulk write. -/
def Obligations.PixelBufferPrimitives : Prop :=
  (∀ x y : Byte, (7 < x.toNat ∨ 7 < y.toNat) →
    bufIndex x y = .error .outOfRange ∧ (∀ buf, bufGet buf x y = .error .outOfRange) ∧
    ∀ buf c, bufSet buf x y c = .error .outOfRange) ∧
  (∀ x y : Byte, x.toNat ≤ 7 → y.toNat ≤ 7 → ∃ i : Fin 64, i.val = y.toNat <<< 3 ||| x.toNat ∧ bufIndex x y = .ok i ∧
    (∀ buf, bufGet buf x y = .ok buf[i]) ∧
    ∀ buf c, ∃ dst, bufSet buf x y c = .ok dst ∧ ∀ j : Fin 64, dst[j] = if j = i then c else buf[j]) ∧
  (∀ (c : Color16) (i : Fin 64), (bufFill c)[i] = c) ∧
  (∀ (src : Buffer) (i : Fin 64), (bufCopy src)[i] = src[i]) ∧
  (∀ (buf : Buffer), (bufReadAll buf).length = 64 ∧ ∀ i : Fin 64, (bufReadAll buf)[i.val]? = some buf[i]) ∧
  (∀ values : List Color16, values.length ≠ 64 → bufWriteAll values = .error .lengthMismatch) ∧
  (∀ values : List Color16, values.length = 64 → ∃ dst, bufWriteAll values = .ok dst ∧ ∀ i : Fin 64, values[i.val]? = some dst[i])

/-- 44_glyph.md R132, R133, R134: the font a selector names, the glyph word of a printable character, and the pixel of a glyph by the
width-based index, which for a row and a column of the glyph stays below `w * h`. -/
def Obligations.FontAndGlyphFunctions : Prop :=
  (∀ s : State, selectFont s .default = .ok s.dfont) ∧
  (∀ s : State, s.ufont = none → selectFont s .user = .error .invalidFont) ∧
  (∀ (s : State) (f : Font), s.ufont = some f → selectFont s .user = .ok f) ∧
  (∀ (f : Font) (ch : Word) (k : Fin 95), ch.toNat = 0x20 + k.val → lookUpGlyph f ch = .ok f.glyphs[k]) ∧
  (∀ (f : Font) (g : GlyphWord) (row col : Nat), row < f.h.toNat → col < f.w.toNat →
    glyphBit f g row col = pixelLit f g row col ∧
    row * f.w.toNat + col + 1 ≤ f.w.toNat * f.h.toNat)

/-! ### Life cycle -/

/-- 43_display.md R113 and 60_exceptions.md R152: the three cases of `INIT`. -/
def Obligations.InitFollowsItsThreeCases : Prop :=
  encode .init = [0x10000000#32] ∧
  (∀ s : State, s.dstate = .active → answersOnly .init s [0x10010000#32]) ∧
  (∀ s : State, s.dstate ≠ .active → s.alloc = .fail → answersOnly .init s [0x10060000#32]) ∧
  (∀ s : State, s.dstate ≠ .active → s.alloc = .ok →
    ∃ d : Display, answersWith .init s d [0x10000000#32] ∧
      (∀ i : Fin 64, d.back[i] = 0 ∧ d.front[i] = 0) ∧ d.rot = .identity ∧ d.scroll = .idle)

/-- 43_display.md R114: `RELEASE` always answers `OK`; it leaves Active for Released and otherwise changes nothing. -/
def Obligations.ReleaseGivesTheDisplayBack : Prop :=
  encode .release = [0x11000000#32] ∧
  (∀ s : State, s.dstate = .active →
    exec .release s = .next { s with life := .released, rsp := s.rsp ++ [0x11000000#32] }) ∧
  (∀ s : State, s.dstate ≠ .active → answersOnly .release s [0x11000000#32])

/-- 43_display.md R115 (the spec's derivation): the host cannot tell Uninitialized from Released. Two states that differ only so
take one step to the same outcome, in states that again differ at most so; their response streams stay equal. -/
def Obligations.UninitializedAndReleasedAreIndistinguishable : Prop :=
  ∀ s t : State, sameToHost s t → sameOutcome (step s) (step t)

/-- 60_exceptions.md R157: the 13 commands outside Active answer `NotActive` and change nothing; the other 8 never answer it. -/
def Obligations.NotActiveForThirteenCommands : Prop :=
  (∀ (i : Instr) (s : State), needsDisplay i.op = true → s.dstate ≠ .active →
    answersOnly i s [headerNat i.op.opc.toNat 8 0]) ∧
  (∀ (i : Instr) (s t : State), needsDisplay i.op = false → exec i s = .next t →
    t.rsp ≠ s.rsp ++ [headerNat i.op.opc.toNat 8 0])

/-! ### Reads -/

/-- 43_display.md R116: the expanded cell of the selected buffer, or `NotActive`, or `OutOfRange`. -/
def Obligations.GetPixReadsTheExpandedCell : Prop :=
  ∀ (sel : BufSel) (x y : Byte) (s : State),
    encode (.getPix sel x y) = [headerNat 0x12 (if sel = .back then 1 else 0) 1, pairNat x y] ∧
    (s.dstate ≠ .active → answersOnly (.getPix sel x y) s [0x12080000#32]) ∧
    (s.dstate = .active → 7 < x.toNat ∨ 7 < y.toNat → answersOnly (.getPix sel x y) s [0x12020000#32]) ∧
    (∀ (d : Display) (i : Fin 64), s.life = .active d → x.toNat ≤ 7 → y.toNat ≤ 7 → i.val = 8 * y.toNat + x.toNat →
      answersOnly (.getPix sel x y) s [0x12000001#32, BitVec.ofNat 32 (expandedNat (selectedBuffer d sel)[i])])

/-- 43_display.md R117: the components of the cell of the selected buffer, or `NotActive`, or `OutOfRange`. -/
def Obligations.GetPixRawReadsTheComponents : Prop :=
  ∀ (sel : BufSel) (x y : Byte) (s : State),
    encode (.getPixRaw sel x y) = [headerNat 0x13 (if sel = .back then 1 else 0) 1, pairNat x y] ∧
    (s.dstate ≠ .active → answersOnly (.getPixRaw sel x y) s [0x13080000#32]) ∧
    (s.dstate = .active → 7 < x.toNat ∨ 7 < y.toNat → answersOnly (.getPixRaw sel x y) s [0x13020000#32]) ∧
    (∀ (d : Display) (i : Fin 64), s.life = .active d → x.toNat ≤ 7 → y.toNat ≤ 7 → i.val = 8 * y.toNat + x.toNat →
      answersOnly (.getPixRaw sel x y) s [0x13000001#32, BitVec.ofNat 32 (componentsNat (selectedBuffer d sel)[i])])

/-- 43_display.md R118: 64 result words, word `i` the zero-extended cell `i`, or `NotActive`. -/
def Obligations.GetAllRawReadsEveryCell : Prop :=
  ∀ (sel : BufSel) (s : State),
    encode (.getAllRaw sel) = [headerNat 0x14 (if sel = .back then 1 else 0) 0] ∧
    (s.dstate ≠ .active → answersOnly (.getAllRaw sel) s [0x14080000#32]) ∧
    (∀ d : Display, s.life = .active d → ∃ ws : List Word,
      answersOnly (.getAllRaw sel) s (0x14000040#32 :: ws) ∧ ws.length = 64 ∧
      ∀ i : Fin 64, ws[i.val]? = some (BitVec.ofNat 32 ((selectedBuffer d sel)[i]).toNat))

/-! ### Writes to the back buffer -/

/-- 43_display.md R119: exactly the cell `8*y + x` of `back` takes the packed colour, or `NotActive`, or `OutOfRange`. -/
def Obligations.SetPixWritesOneBackCell : Prop :=
  ∀ (x y r g b : Byte) (s : State),
    encode (.setPix x y r g b) = [0x15000002#32, pairNat x y, rgbNat r g b] ∧
    (s.dstate ≠ .active → answersOnly (.setPix x y r g b) s [0x15080000#32]) ∧
    (s.dstate = .active → 7 < x.toNat ∨ 7 < y.toNat → answersOnly (.setPix x y r g b) s [0x15020000#32]) ∧
    (∀ d : Display, s.life = .active d → x.toNat ≤ 7 → y.toNat ≤ 7 → ∃ back : Buffer,
      answersWith (.setPix x y r g b) s { d with back := back } [0x15000000#32] ∧
      ∀ i : Fin 64, back[i] = if i.val = 8 * y.toNat + x.toNat then BitVec.ofNat 16 (packedNat r g b) else d.back[i])

/-- 43_display.md R120: exactly the cell `8*y + x` of `back` takes the unmasked OR; the components are not checked. -/
def Obligations.SetPixRawWritesOneBackCell : Prop :=
  ∀ (x y r5 g6 b5 : Byte) (s : State),
    encode (.setPixRaw x y r5 g6 b5) = [0x16000002#32, pairNat x y, rgbNat r5 g6 b5] ∧
    (s.dstate ≠ .active → answersOnly (.setPixRaw x y r5 g6 b5) s [0x16080000#32]) ∧
    (s.dstate = .active → 7 < x.toNat ∨ 7 < y.toNat → answersOnly (.setPixRaw x y r5 g6 b5) s [0x16020000#32]) ∧
    (∀ d : Display, s.life = .active d → x.toNat ≤ 7 → y.toNat ≤ 7 → ∃ back : Buffer,
      answersWith (.setPixRaw x y r5 g6 b5) s { d with back := back } [0x16000000#32] ∧
      ∀ i : Fin 64,
        (i.val = 8 * y.toNat + x.toNat → ∀ k < 16, (back[i]).getLsbD k = rawBit r5 g6 b5 k) ∧
        (i.val ≠ 8 * y.toNat + x.toNat → back[i] = d.back[i]))

/-- 43_display.md R121 (41_pixelbuffer.md R96): all 64 cells of `back` or none. -/
def Obligations.SetAllRawWritesAllOrNothing : Prop :=
  ∀ (values : List Color16) (s : State),
    (values.length ≤ 65535 → encode (.setAllRaw values) = headerNat 0x17 0 values.length :: values.map c16Nat) ∧
    (s.dstate ≠ .active → answersOnly (.setAllRaw values) s [0x17080000#32]) ∧
    (s.dstate = .active → values.length ≠ 64 → answersOnly (.setAllRaw values) s [0x17030000#32]) ∧
    (∀ d : Display, s.life = .active d → values.length = 64 → ∃ back : Buffer,
      answersWith (.setAllRaw values) s { d with back := back } [0x17000000#32] ∧
      ∀ i : Fin 64, values[i.val]? = some back[i])

/-- 43_display.md R122 (41_pixelbuffer.md R93): every cell of `back`; `front` is kept. -/
def Obligations.FillSetsEveryBackCell : Prop :=
  ∀ (c : Color16) (s : State),
    encode (.fill c) = [0x18000001#32, c16Nat c] ∧
    (s.dstate ≠ .active → answersOnly (.fill c) s [0x18080000#32]) ∧
    (∀ d : Display, s.life = .active d → ∃ back : Buffer,
      answersWith (.fill c) s { d with back := back } [0x18000000#32] ∧ ∀ i : Fin 64, back[i] = c)

/-- 43_display.md R123: `back` all zero, and with redraw `front` too, under every orientation; without it `front` is kept. -/
def Obligations.ClearZeroesAndOptionallyPresents : Prop :=
  ∀ (redraw : Bool) (s : State),
    encode (.clear redraw) = [headerNat 0x19 (if redraw = true then 1 else 0) 0] ∧
    (s.dstate ≠ .active → answersOnly (.clear redraw) s [0x19080000#32]) ∧
    (∀ d : Display, s.life = .active d → ∃ back front : Buffer,
      answersWith (.clear redraw) s { d with back := back, front := front } [0x19000000#32] ∧
      (∀ i : Fin 64, back[i] = 0) ∧
      ∀ i : Fin 64, front[i] = if redraw = true then 0 else d.front[i])

/-- 43_display.md R124: an 8 by 8 bitmap converted pixel by pixel into `back`; any other shape is `InvalidDimensions`. The decoder
brings `w * h` pixels (R58e), which is the premise `wf`. -/
def Obligations.DrawBitmapConvertsEveryPixel : Prop :=
  ∀ (w h : Byte) (pixels : List Rgb) (s : State), (Instr.drawBitmap w h pixels).wf = true →
    encode (.drawBitmap w h pixels) = headerNat 0x1A 0 (1 + w.toNat * h.toNat) :: pairNat w h :: pixels.map (fun p => rgbNat p.r p.g p.b) ∧
    (s.dstate ≠ .active → answersOnly (.drawBitmap w h pixels) s [0x1A080000#32]) ∧
    (s.dstate = .active → ¬(w.toNat = 8 ∧ h.toNat = 8) → answersOnly (.drawBitmap w h pixels) s [0x1A040000#32]) ∧
    (∀ d : Display, s.life = .active d → w.toNat = 8 → h.toNat = 8 → ∃ back : Buffer,
      answersWith (.drawBitmap w h pixels) s { d with back := back } [0x1A000000#32] ∧
      ∀ (i : Fin 64) (p : Rgb), pixels[i.val]? = some p → back[i] = BitVec.ofNat 16 (packedNat p.r p.g p.b))

/-! ### Rotation and presenting -/

/-- 42_rotation.md R104: codes 0 to 5 are written to `rot` and, with redraw, `front` is `back` reordered under the new
orientation; other codes are `OutOfRange`. -/
def Obligations.SetRotWritesAndOptionallyPresents : Prop :=
  ∀ (redraw : Bool) (o : Byte) (s : State),
    encode (.setRot redraw o) = [headerNat 0x20 (if redraw = true then 1 else 0) 1, BitVec.ofNat 32 o.toNat] ∧
    (s.dstate ≠ .active → answersOnly (.setRot redraw o) s [0x20080000#32]) ∧
    (s.dstate = .active → 5 < o.toNat → answersOnly (.setRot redraw o) s [0x20020000#32]) ∧
    (∀ (d : Display) (rot : Orientation), s.life = .active d → orientationCode rot = o.toNat → ∃ front : Buffer,
      answersWith (.setRot redraw o) s { d with rot := rot, front := front } [0x20000000#32] ∧
      (redraw = true → reordered rot d.back front) ∧ (redraw = false → front = d.front))

/-- 42_rotation.md R105 (R103): every pixel of `back` stands at its destination cell in `front`; under the identity the two are
bit-identical. -/
def Obligations.PresentReordersBackIntoFront : Prop :=
  ∀ s : State,
    encode .present = [0x21000000#32] ∧
    (s.dstate ≠ .active → answersOnly .present s [0x21080000#32]) ∧
    (∀ d : Display, s.life = .active d → ∃ front : Buffer,
      answersWith .present s { d with front := front } [0x21000000#32] ∧ reordered d.rot d.back front ∧
      (d.rot = .identity → front = d.back))

/-- 42_rotation.md R101 (R100): `RotApply` puts each source pixel at its destination, and the destinations are a bijection of the
64 cells, so that every cell is written exactly once. -/
def Obligations.RotApplyIsABijectiveReorder : Prop :=
  ∀ o : Orientation,
    (∀ x y : Fin 8, (rotIndex o x y).val = destinationNat o x.val y.val) ∧
    (∀ src : Buffer, reordered o src (rotApply o src)) ∧
    (∀ x y : Fin 8, destinationNat o x.val y.val < 64) ∧
    (∀ x y x' y' : Fin 8, destinationNat o x.val y.val = destinationNat o x'.val y'.val → x = x' ∧ y = y')

/-- 42_rotation.md section 3 (the spec's derivation): the group laws of the six transforms, on every buffer. -/
def Obligations.RotationsComposeAsStated : Prop :=
  ∀ src : Buffer,
    rotApply .rot90 (rotApply .rot90 (rotApply .rot90 (rotApply .rot90 src))) = src ∧
    rotApply .flipH (rotApply .flipH src) = src ∧ rotApply .flipV (rotApply .flipV src) = src ∧
    rotApply .rot90 (rotApply .rot90 src) = rotApply .rot180 src ∧
    rotApply .rot270 (rotApply .rot90 src) = src ∧
    rotApply .flipV (rotApply .flipH src) = rotApply .rot180 src

/-- 42_rotation.md section 3 (the spec's derivation): no orientation is the transpose; it takes 90° and then flip-horizontal. -/
def Obligations.NoOrientationTransposes : Prop :=
  (∀ o : Orientation, ∃ src : Buffer, ∃ x y : Fin 8,
    (rotApply o src)[8 * x.val + y.val]? ≠ src[8 * y.val + x.val]?) ∧
  (∀ (src : Buffer) (x y : Fin 8),
    (rotApply .flipH (rotApply .rot90 src))[8 * x.val + y.val]? = src[8 * y.val + x.val]?)

/-! ### Glyphs -/

/-- 44_glyph.md R135: the glyph word as stored, high half first, in every life-cycle state; else `InvalidFont`, then `UnsupportedChar`. -/
def Obligations.GlyphBitsReadsTheStoredWord : Prop :=
  ∀ (sel : FontSel) (ch : Word) (s : State),
    encode (.glyphBits sel ch) = [headerNat 0x30 (if sel = .user then 1 else 0) 1, ch] ∧
    (selectedFont s sel = none → answersOnly (.glyphBits sel ch) s [0x300A0000#32]) ∧
    (∀ f : Font, selectedFont s sel = some f → printable ch = false →
      answersOnly (.glyphBits sel ch) s [0x30050000#32]) ∧
    (∀ (f : Font) (k : Fin 95), selectedFont s sel = some f → ch.toNat = 0x20 + k.val → ∃ hi lo : Word,
      answersOnly (.glyphBits sel ch) s [0x30000002#32, hi, lo] ∧
      hi.toNat * 2 ^ 32 + lo.toNat = (f.glyphs[k]).toNat)

/-- 44_glyph.md R136: the whole of `ufont` is replaced, or with `w * h > 64` nothing changes. -/
def Obligations.LoadFontReplacesTheUserFont : Prop :=
  ∀ (w h : Byte) (glyphs : GlyphTable) (s : State),
    (∃ words, encode (.loadFont w h glyphs) = 0x310000BF#32 :: pairNat w h :: words ∧ words.length = 190 ∧
      ∀ k : Fin 95, ∃ hi lo : Word, words[2 * k.val]? = some hi ∧ words[2 * k.val + 1]? = some lo ∧
        hi.toNat * 2 ^ 32 + lo.toNat = (glyphs[k]).toNat) ∧
    (64 < w.toNat * h.toNat → answersOnly (.loadFont w h glyphs) s [0x310A0000#32]) ∧
    (w.toNat * h.toNat ≤ 64 →
      exec (.loadFont w h glyphs) s = .next { s with
        ufont := some { w := w, h := h, glyphs := glyphs }
        rsp := s.rsp ++ [0x31000000#32] })

/-- 44_glyph.md section 2 (R137, R138; R133): the checks in order, the clearing branch for the space and the non-printable, and the
rectangle of the glyph drawn with the width-based bit index, every cell outside it kept. Where a side of the font is above 8 and
`w * h` is 0, a corner case of R137 says `OK` and its pseudocode `OutOfRange`; the model takes the pseudocode (DEDUCED, log 16). -/
def Obligations.DrawLetterDrawsOrClears : Prop :=
  ∀ (sel : FontSel) (ch : Word) (c : Color16) (s : State),
    encode (.drawLetter sel ch c) = [headerNat 0x32 (if sel = .user then 1 else 0) 2, ch, c16Nat c] ∧
    (s.dstate ≠ .active → answersOnly (.drawLetter sel ch c) s [0x32080000#32]) ∧
    (s.dstate = .active → selectedFont s sel = none → answersOnly (.drawLetter sel ch c) s [0x320A0000#32]) ∧
    (∀ (d : Display) (f : Font), s.life = .active d → selectedFont s sel = some f →
      (ch.toNat = 0x20 ∨ printable ch = false → ∃ back : Buffer,
        answersWith (.drawLetter sel ch c) s { d with back := back } [0x32000000#32] ∧ ∀ i : Fin 64, back[i] = 0) ∧
      (ch.toNat ≠ 0x20 → printable ch = true → 8 < f.w.toNat ∨ 8 < f.h.toNat →
        answersOnly (.drawLetter sel ch c) s [0x32020000#32]) ∧
      (∀ k : Fin 95, ch.toNat ≠ 0x20 → ch.toNat = 0x20 + k.val → f.w.toNat ≤ 8 → f.h.toNat ≤ 8 → ∃ back : Buffer,
        answersWith (.drawLetter sel ch c) s { d with back := back } [0x32000000#32] ∧
        ∀ x y : Fin 8, back[8 * y.val + x.val]? =
          if y.val < f.h.toNat ∧ x.val < f.w.toNat
          then some (if pixelLit f f.glyphs[k] y.val x.val then c else 0)
          else d.back[8 * y.val + x.val]?))

/-- 60_exceptions.md R158 (44_glyph.md R134): the causes of `InvalidFont`; it stands before the operand checks and before
`DRAWLETTER`'s clearing branch. -/
def Obligations.InvalidFontHasTwoCauses : Prop :=
  (∀ (ch : Word) (s : State), s.ufont = none → answersOnly (.glyphBits .user ch) s [0x300A0000#32]) ∧
  (∀ (ch : Word) (c : Color16) (s : State), s.ufont = none → s.dstate = .active →
    answersOnly (.drawLetter .user ch c) s [0x320A0000#32]) ∧
  (∀ (c : Color16) (delay : Word) (msg : List Word) (s : State), s.ufont = none → s.dstate = .active →
    answersOnly (.scroll .user c delay msg) s [0x330A0000#32]) ∧
  (∀ (w h : Byte) (glyphs : GlyphTable) (s : State), 64 < w.toNat * h.toNat →
    answersOnly (.loadFont w h glyphs) s [0x310A0000#32])

/-- 20_memory.md R32 (44_glyph.md R133): bits `w*h` to 63 of a glyph word are never read by drawing. Two fonts of the same geometry whose
glyphs agree below bit `w*h` draw the same letters and build the same columns. -/
def Obligations.HighGlyphBitsAreNeverDrawn : Prop :=
  ∀ f f' : Font, f.w = f'.w → f.h = f'.h →
    (∀ (k : Fin 95) (n : Nat), n < f.w.toNat * f.h.toNat → (f.glyphs[k]).getLsbD n = (f'.glyphs[k]).getLsbD n) →
    (∀ (ch : Word) (c : Color16) (back : Buffer), letterBuffer f ch c back = letterBuffer f' ch c back) ∧
    (∀ msg : List Word, buildColumns f msg = buildColumns f' msg)

/-! ### Scrolling -/

/-- 44_glyph.md section 3 (R141 and R142, with the checks of R140): `NotActive`, then `InvalidFont`, then `OutOfRange` for a font taller
than 8; otherwise the scroll is in flight with the columns `BuildColumns` makes of the message, at its first window with no frame
presented, whatever the colour, the delay and the message are, and nothing else changes; there are as many columns as R142 says, and
the rows below a font shorter than 8 are blank in each. That the start is a step of its own is the model's choice (log 10). -/
def Obligations.ScrollStartsAfterItsChecks : Prop :=
  ∀ (sel : FontSel) (c : Color16) (delay : Word) (msg : List Word) (s : State),
    (msg.length ≤ 65533 → encode (.scroll sel c delay msg) =
      headerNat 0x33 (if sel = .user then 1 else 0) (2 + msg.length) :: c16Nat c :: delay :: msg) ∧
    (s.dstate ≠ .active → answersOnly (.scroll sel c delay msg) s [0x33080000#32]) ∧
    (s.dstate = .active → selectedFont s sel = none → answersOnly (.scroll sel c delay msg) s [0x330A0000#32]) ∧
    (∀ f : Font, s.dstate = .active → selectedFont s sel = some f → 8 < f.h.toNat →
      answersOnly (.scroll sel c delay msg) s [0x33020000#32]) ∧
    (∀ (d : Display) (f : Font), s.life = .active d → selectedFont s sel = some f → f.h.toNat ≤ 8 →
      answersWith (.scroll sel c delay msg) s
        { d with scroll := .running { cols := buildColumns f msg, pos := 0, color := c, delay := delay, count := 0 } } [] ∧
      (buildColumns f msg).length = totalColumns f.w.toNat (msg.filter printable).length ∧
      ∀ v ∈ buildColumns f msg, ∀ l < 8, f.h.toNat ≤ l → v.getLsbD (7 - l) = false)

/-- 44_glyph.md R142: the total, eight blank columns at each end, and between them, for the `j`-th printable character, its `w` columns with row
`l` at bit `7 - l`, and one blank column before the next; a character without a glyph leaves nothing. -/
def Obligations.BuildColumnsLaysOutTheMessage : Prop :=
  ∀ (f : Font) (msg : List Word), f.h.toNat ≤ 8 →
    let chars := msg.filter printable
    let cols := buildColumns f msg
    cols.length = totalColumns f.w.toNat chars.length ∧
    cols.take 8 = List.replicate 8 0 ∧ cols.drop (cols.length - 8) = List.replicate 8 0 ∧
    (∀ (j : Nat) (ch : Word) (g : Fin 95) (k : Nat), chars[j]? = some ch → ch.toNat = 0x20 + g.val → k < f.w.toNat →
      ∃ v : Byte, cols[8 + j * (f.w.toNat + 1) + k]? = some v ∧
        ∀ l < 8, v.getLsbD (7 - l) = (decide (l < f.h.toNat) && pixelLit f f.glyphs[g] l k)) ∧
    (∀ j : Nat, j + 1 < chars.length → cols[8 + j * (f.w.toNat + 1) + f.w.toNat]? = some 0)

/-- 44_glyph.md section 3 (R143 and the loop of R140): one frame clears `back`, draws the eight columns of the window, presents through
`rot` and counts; after the last window the scroll ends with `OK` and the count. That the response comes in the step of the last frame
is the model's choice (log 10). A frame whose step takes a pending drive is in `PendingDriveIsTakenFirst`. -/
def Obligations.ScrollFrameDrawsPresentsAndCounts : Prop :=
  ∀ (s : State) (d : Display) (r : ScrollRun), s.life = .active d → d.scroll = .running r → s.inputs = [] →
    s.cancel = false → r.pos + 8 ≤ r.cols.length → ∃ back front : Buffer,
      (∀ j k : Fin 8, ∀ v : Byte, r.cols[r.pos + j.val]? = some v →
        back[8 * k.val + j.val]? = some (if v.getLsbD (7 - k.val) then r.color else 0)) ∧
      reordered d.rot back front ∧
      (r.pos + 9 ≤ r.cols.length →
        step s = .next { s with life := .active { d with
          back := back
          front := front
          scroll := .running { r with pos := r.pos + 1, count := r.count + 1 } } }) ∧
      (r.cols.length < r.pos + 9 →
        step s = .next { s with
          life := .active { d with back := back, front := front, scroll := .idle }
          rsp := s.rsp ++ [0x33000001#32, BitVec.ofNat 32 (r.count + 1)] })

/-- 60_exceptions.md R163 (44_glyph.md R145): `cancel` read as 1 at the top of a frame ends the scroll there; the buffers keep the last frame,
the response carries `Cancelled`, one result word and the count of frames presented, which is `pos` by the invariant. -/
def Obligations.CancelEndsTheScrollAtAFrame : Prop :=
  ∀ (s : State) (d : Display) (r : ScrollRun), s.life = .active d → d.scroll = .running r → s.inputs = [] →
    s.cancel = true → r.pos + 8 ≤ r.cols.length →
    step s = .next { s with
      life := .active { d with scroll := .idle }
      rsp := s.rsp ++ [0x330B0001#32, BitVec.ofNat 32 r.count] } ∧
    (inv s = true → r.count = r.pos)

/-- 44_glyph.md section 3 (R145): `cancel` left at 1 makes the next `SCROLL` end at frame 0 with count 0 and stays at 1, and the step of
a command itself is the same for either level. That `SCROLL` starts in one step and its frame 0 is the next is log 10's choice. -/
def Obligations.CancelStaysAndActsOnFramesAlone : Prop :=
  (∀ (sel : FontSel) (c : Color16) (delay : Word) (msg : List Word) (s : State) (d : Display) (f : Font),
    s.life = .active d → selectedFont s sel = some f → f.h.toNat ≤ 8 → s.cancel = true → s.inputs = [] →
    ∃ t : State, exec (.scroll sel c delay msg) s = .next t ∧
      step t = .next { s with
        life := .active { d with scroll := .idle }
        rsp := s.rsp ++ [0x330B0001#32, 0#32] }) ∧
  (∀ (i : Instr) (s t : State) (b : Bool), exec i s = .next t → exec i { s with cancel := b } = .next { t with cancel := b })

/-- 44_glyph.md section 3 (R144, the spec's derivation) and 70_reset_and_hazards.md section 4 (R188): with `cancel` at 0, a `SCROLL` that
passed its checks runs `total - 7` frames, one a step, and ends with both buffers all zero and the count `total - 7`; nothing else has
changed. That it ends rests on R188 (b)'s fairness assumption, each delay ends, which the model builds in by not modelling the waits
(log 11); that the start is a step of its own is the model's choice (log 10). -/
def Obligations.ScrollRunsEveryFrameToItsEnd : Prop :=
  ∀ (sel : FontSel) (c : Color16) (delay : Word) (msg : List Word) (s : State) (d : Display) (f : Font),
    s.life = .active d → selectedFont s sel = some f → f.h.toNat ≤ 8 → s.cancel = false → s.inputs = [] →
    ∃ t : State, exec (.scroll sel c delay msg) s = .next t ∧
      ∃ d' : Display,
        Host.Core.run Sys2Proof.core (totalColumns f.w.toNat (msg.filter printable).length - 7) t = .next { s with
          life := .active d'
          rsp := s.rsp ++ [0x33000001#32,
            BitVec.ofNat 32 (totalColumns f.w.toNat (msg.filter printable).length - 7)] } ∧
        (∀ i : Fin 64, d'.back[i] = 0 ∧ d'.front[i] = 0) ∧ d'.rot = d.rot ∧ d'.scroll = .idle

/-! ### Rules about every command -/

/-- 60_exceptions.md sections 1 and 2 and 20_memory.md section 2 (R150, R160, R37): a command either answers `OK` with its result words,
or raises a status of its own and leaves every state element as it was. That `exec` of a `SCROLL` that passes its checks emits nothing,
leaves the scroll in flight with count 0 and answers in a later step is the model's choice (log 10). -/
def Obligations.EveryCommandIsAllOrNothing : Prop :=
  ∀ (i : Instr) (s t : State), exec i s = .next t →
    (∃ results : List Word, results.length = resultLength i.op ∧
      t.rsp = s.rsp ++ headerNat i.op.opc.toNat 0 results.length :: results) ∨
    (∃ st : Status, mayRaise i.op st = true ∧
      t = { s with rsp := s.rsp ++ [headerNat i.op.opc.toNat (statusCode st).toNat 0] }) ∨
    (i.op = .scroll ∧ t.rsp = s.rsp ∧ ∃ r, t.scroll = .running r ∧ r.count = 0)

/-- 70_reset_and_hazards.md section 4: every command, in every state, with every operand, has a next state; for a `SCROLL` that passes
its checks it is the start of the scroll (the model's choice, log 10). -/
def Obligations.EveryCommandCompletes : Prop :=
  ∀ (i : Instr) (s : State), ∃ t, exec i s = .next t

/-- 10_state.md section 2 (R11 to R17, "written only by"): an element that a command does not list as written is as it was, and no command
touches the command stream, the inputs or the levels. R12 and R13 list `SCROLL` as a writer of `back` and `front`: here its frames
write them, which are later steps, and the step of the command itself leaves both as they were (the model's choice, log 10). -/
def Obligations.OnlyTheListedCommandsWriteAnElement : Prop :=
  ∀ (i : Instr) (s t : State), exec i s = .next t →
    (∀ e : Elem, writesElem i e = false → sameElem s t e) ∧
    t.cmd = s.cmd ∧ t.inputs = s.inputs ∧ t.cancel = s.cancel ∧ t.alloc = s.alloc

/-- 20_memory.md section 2 (the spec's derivation): a read changes no state element. -/
def Obligations.ReadsHaveNoSideEffect : Prop :=
  ∀ (i : Instr) (s t : State), readsOnly i.op = true → exec i s = .next t → t = { s with rsp := t.rsp }

/-- 20_memory.md section 2 (the spec's derivation): the listed writes twice in a row leave the state of once. -/
def Obligations.ListedWritesAreIdempotent : Prop :=
  ∀ (i : Instr) (s t u : State), idempotentWrite i.op = true → exec i s = .next t → exec i t = .next u →
    u = { t with rsp := u.rsp }

/-- 43_display.md R123, the corner case: `CLEAR NOREDRAW` and `FILL 0x0000` leave the same state (the responses name their own opcode). -/
def Obligations.ClearWithoutRedrawIsFillZero : Prop :=
  ∀ s t u : State, exec (.clear false) s = .next t → exec (.fill 0) s = .next u → { t with rsp := u.rsp } = u

/-- 10_state.md R24: what a Display held is gone after `RELEASE`; a later `INIT` starts the same whatever it was. -/
def Obligations.NoPixelSurvivesRelease : Prop :=
  ∀ (s : State) (d d' : Display) (t t' u u' : State),
    exec .release { s with life := .active d } = .next t → exec .release { s with life := .active d' } = .next t' →
    exec .init t = .next u → exec .init t' = .next u' → t = t' ∧ u = u'

/-- 20_memory.md section 4 (R42), through the relation `driverMaySee` that the model has in the place of the driver (its choice, log 14):
the driver sees an image that is not one of the two whole ones only with the snapshot `cell`, and a step that presents nothing shows it
`front` unchanged, with either snapshot. That the step of `SCROLL` itself is one of those is the model's choice (log 10). -/
def Obligations.DriverSeesFrontUnchangedOutsidePresents : Prop :=
  (∀ (s t : State) (img : Buffer), driverMaySee .command s t img → driverMaySee .cell s t img) ∧
  (∀ (snap : Snapshot) (i : Instr) (s t : State) (d : Display) (img : Buffer), s.life = .active d → exec i s = .next t →
    writesElem i .front = false → driverMaySee snap s t img → img = d.front)

/-! ### The invariant -/

/-- The invariant on the facts of 10_state.md R16 and R17: a loaded font fits 64 bits, and a scroll in flight is inside its columns. -/
def Obligations.EveryStepKeepsTheInvariant : Prop :=
  ∀ s t : State, inv s = true → step s = .next t → inv t = true

/-- The invariant holds right after reset. -/
def Obligations.InvariantHoldsAtReset : Prop := inv State.reset = true

/-! ### Windows, and inputs that come in a step -/

/-- 44_glyph.md R143: `DrawWindow` clears `back` and draws window column `j`, which is `cols[pos + j]` and exists, into buffer column `j`,
its bit `7 - k` at row `k`; so every cell is the colour or 0. -/
def Obligations.DrawWindowClearsAndDrawsEightColumns : Prop :=
  ∀ (cols : List Byte) (pos : Nat) (c : Color16), pos + 8 ≤ cols.length → ∀ j k : Fin 8, ∃ v : Byte,
    cols[pos + j.val]? = some v ∧
    (drawWindow cols pos c)[8 * k.val + j.val]? = some (if v.getLsbD (7 - k.val) then c else 0)

/-- 10_state.md section 3 (R18) and 44_glyph.md section 3 (R145: the value of `cancel` read at each frame is a free input of that frame's
step), as the model holds inputs (its choice, log 1): a pending drive is taken first in whatever step the block then makes. What the
step does with the levels set and the words appended is what it does from there with no input pending, later inputs kept; only inside a
packet that is not all there it waits instead of stopping while later inputs remain (log 9). The last two clauses say it of a frame that
is cancelled and of a malformed packet. -/
def Obligations.PendingDriveIsTakenFirst : Prop :=
  (∀ (s : State) (c : Bool) (a : AllocAnswer) (ws : List Word) (ins : List Input), s.inputs = .drive c a ws :: ins →
    let driven : State := { s with inputs := [], cancel := c, alloc := a, cmd := s.cmd ++ ws }
    (∀ t : State, step driven = .next t → step s = .next { t with inputs := ins }) ∧
    (∀ f : Fault, step driven = .fault f →
      (ins = [] → step s = .fault f) ∧ (ins ≠ [] → step s = .next { driven with inputs := ins }))) ∧
  (∀ (s : State) (d : Display) (r : ScrollRun) (a : AllocAnswer) (ws : List Word) (ins : List Input),
    s.inputs = .drive true a ws :: ins → s.life = .active d → d.scroll = .running r → r.pos + 8 ≤ r.cols.length →
    step s = .next { s with
      inputs := ins, cancel := true, alloc := a, cmd := s.cmd ++ ws
      life := .active { d with scroll := .idle }
      rsp := s.rsp ++ [0x330B0001#32, BitVec.ofNat 32 r.count] }) ∧
  (∀ (s : State) (c : Bool) (a : AllocAnswer) (ws : List Word) (ins : List Input) (h : Word) (p rest : List Word),
    s.inputs = .drive c a ws :: ins → s.scroll = .idle → s.cmd ++ ws = h :: (p ++ rest) → p.length = h.toNat % 2 ^ 16 →
    malformedPacket h p →
    step s = .next { s with
      inputs := ins, cancel := c, alloc := a, cmd := rest
      rsp := s.rsp ++ [headerNat (h.toNat / 2 ^ 24) 9 0] })
end

