-- ==== Sys2Proof/Laws/Decode.lean ====
section
/-! SUPPORT. The pieces of a packet read back: header fields, operand words and lists of them, in both directions. -/

namespace Sys2Proof

/-! ### `Except` in the decoder's `do` blocks -/

/-- A `do` block of the decoder answers a value only through both of its halves. -/
theorem except_bind_eq_ok {ε α β : Type} {x : Except ε α} {f : α → Except ε β} {b : β} :
    (x >>= f) = .ok b ↔ ∃ a, x = .ok a ∧ f a = .ok b := by
  cases x with
  | ok a => simp [bind, Except.bind]
  | error e => simp [bind, Except.bind]

/-! ### Header fields (30_encoding.md R51) -/

theorem opcField_toNat (h : Word) : (opcField h).toNat = h.toNat / 2 ^ 24 := by
  have := h.isLt
  simp [opcField, Nat.shiftRight_eq_div_pow]; omega

theorem reservedFlags_toNat (h : Word) : (reservedFlags h).toNat = h.toNat / 2 ^ 17 % 2 ^ 7 := by
  simp [reservedFlags, Nat.shiftRight_eq_div_pow]

theorem selectorBit_eq (h : Word) : selectorBit h = decide (h.toNat / 2 ^ 16 % 2 = 1) := by
  simp [selectorBit, BitVec.getLsbD, Nat.testBit_eq_decide_div_mod_eq]

theorem lenField_eq (h : Word) : lenField h = h.toNat % 2 ^ 16 := by simp [lenField]

theorem lenField_lt (h : Word) : lenField h < 65536 := by rw [lenField_eq]; omega

/-- A header word as a number (30_encoding.md R51). -/
theorem headerWord_toNat (op : Op) (sel : Bool) (n : Nat) (hn : n < 65536) :
    (headerWord op sel n).toNat = op.opc.toNat * 2 ^ 24 + sel.toNat * 2 ^ 16 + n := by
  have h1 := op.opc.isLt
  have h2 := sel.toNat_lt
  simp only [headerWord, BitVec.toNat_append, BitVec.toNat_ofNat, BitVec.toNat_ofBool]
  rw [← Nat.shiftLeft_add_eq_or_of_lt (by omega), ← Nat.shiftLeft_add_eq_or_of_lt (by omega),
    ← Nat.shiftLeft_add_eq_or_of_lt (by omega)]
  simp only [Nat.shiftLeft_eq]
  omega

@[simp] theorem opcField_headerWord (op : Op) (sel : Bool) (n : Nat) (hn : n < 65536) :
    opcField (headerWord op sel n) = op.opc := by
  have := sel.toNat_lt
  apply BitVec.eq_of_toNat_eq
  rw [opcField_toNat, headerWord_toNat op sel n hn]; omega

@[simp] theorem reservedFlags_headerWord (op : Op) (sel : Bool) (n : Nat) (hn : n < 65536) :
    reservedFlags (headerWord op sel n) = 0 := by
  have := sel.toNat_lt
  apply BitVec.eq_of_toNat_eq
  rw [reservedFlags_toNat, headerWord_toNat op sel n hn]
  simp only [BitVec.ofNat_eq_ofNat, BitVec.toNat_ofNat]; omega

@[simp] theorem selectorBit_headerWord (op : Op) (sel : Bool) (n : Nat) (hn : n < 65536) :
    selectorBit (headerWord op sel n) = sel := by
  rw [selectorBit_eq, headerWord_toNat op sel n hn]
  cases sel <;> simp <;> omega

@[simp] theorem lenField_headerWord (op : Op) (sel : Bool) (n : Nat) (hn : n < 65536) :
    lenField (headerWord op sel n) = n := by
  have := sel.toNat_lt
  rw [lenField_eq, headerWord_toNat op sel n hn]; omega

/-- A header is its four fields. -/
theorem headerWord_of_fields {h : Word} {op : Op} (hop : opcField h = op.opc) (hr : reservedFlags h = 0) :
    headerWord op (selectorBit h) (lenField h) = h := by
  apply BitVec.eq_of_toNat_eq
  rw [headerWord_toNat _ _ _ (lenField_lt h), ← hop, opcField_toNat, lenField_eq, selectorBit_eq]
  have hr' : h.toNat / 2 ^ 17 % 2 ^ 7 = 0 := by rw [← reservedFlags_toNat, hr]; rfl
  have := h.isLt
  by_cases hb : h.toNat / 2 ^ 16 % 2 = 1 <;> simp only [hb, decide_true, decide_false, Bool.toNat_true, Bool.toNat_false] <;>
    simp <;> omega

@[simp] theorem opOfOpc_opc (op : Op) : opOfOpc op.opc = some op := by cases op <;> decide

/-- The opcode map has no other way to a command than its `OPC`. -/
theorem opOfOpc_eq_some {opc : Byte} {op : Op} : opOfOpc opc = some op ↔ op.opc = opc := by
  constructor
  · intro h
    simpa using List.find?_some h
  · rintro rfl
    exact opOfOpc_opc op

/-! ### Operand words (30_encoding.md R53) -/

theorem rgbWord_toNat (c : Rgb) : (rgbWord c).toNat = c.r.toNat * 65536 + c.g.toNat * 256 + c.b.toNat := by
  have h1 := c.r.isLt
  have h2 := c.g.isLt
  have h3 := c.b.isLt
  simp only [rgbWord, BitVec.toNat_append, BitVec.toNat_ofNat]
  rw [← Nat.shiftLeft_add_eq_or_of_lt (by omega), ← Nat.shiftLeft_add_eq_or_of_lt (by omega),
    ← Nat.shiftLeft_add_eq_or_of_lt (by omega)]
  simp only [Nat.shiftLeft_eq]
  omega

theorem c16Word_toNat (c : Color16) : (c16Word c).toNat = c.toNat := by
  simp only [c16Word, BitVec.toNat_append, BitVec.toNat_ofNat]
  simp

theorem pairWord_toNat (lo hi : Byte) : (pairWord lo hi).toNat = hi.toNat * 256 + lo.toNat := by
  have h1 := lo.isLt
  have h2 := hi.isLt
  simp only [pairWord, BitVec.toNat_append, BitVec.toNat_ofNat]
  rw [← Nat.shiftLeft_add_eq_or_of_lt (by omega), ← Nat.shiftLeft_add_eq_or_of_lt (by omega)]
  simp only [Nat.shiftLeft_eq]
  omega

theorem rotWord_toNat (o : Byte) : (rotWord o).toNat = o.toNat := by
  simp only [rotWord, BitVec.toNat_append, BitVec.toNat_ofNat]
  simp

/-- A bit field of a word as a number. -/
theorem field_toNat (w : Word) (start len : Nat) : (w.extractLsb' start len).toNat = w.toNat / 2 ^ start % 2 ^ len := by
  simp [Nat.shiftRight_eq_div_pow]

/-- A bit field is zero exactly when its number is. -/
theorem field_eq_zero_iff (w : Word) (start len : Nat) :
    w.extractLsb' start len = 0 ↔ w.toNat / 2 ^ start % 2 ^ len = 0 := by
  rw [← field_toNat]
  exact ⟨fun h => by rw [h]; simp, fun h => BitVec.eq_of_toNat_eq (by simpa using h)⟩

/-- `W_RGB`: a word is accepted exactly as the word of its three channels. -/
theorem readRgb_eq_ok_iff {w : Word} {c : Rgb} : readRgb w = .ok c ↔ rgbWord c = w := by
  unfold readRgb
  have hw := w.isLt
  constructor
  · intro h
    split at h
    · rename_i h0
      rw [field_eq_zero_iff] at h0
      cases h
      apply BitVec.eq_of_toNat_eq
      rw [rgbWord_toNat]
      simp only [field_toNat]; omega
    · cases h
  · rintro rfl
    have h1 := c.r.isLt
    have h2 := c.g.isLt
    have h3 := c.b.isLt
    rw [if_pos ((field_eq_zero_iff _ _ _).2 (by rw [rgbWord_toNat]; omega))]
    cases c
    simp only [Except.ok.injEq, Rgb.mk.injEq]
    refine ⟨?_, ?_, ?_⟩ <;>
    · apply BitVec.eq_of_toNat_eq
      rw [field_toNat, rgbWord_toNat]; simp only at *; omega

/-- `W_C16`: a word is accepted exactly as the word of its colour. -/
theorem readC16_eq_ok_iff {w : Word} {c : Color16} : readC16 w = .ok c ↔ c16Word c = w := by
  unfold readC16
  have hw := w.isLt
  constructor
  · intro h
    split at h
    · rename_i h0
      rw [field_eq_zero_iff] at h0
      cases h
      apply BitVec.eq_of_toNat_eq
      rw [c16Word_toNat, field_toNat]; omega
    · cases h
  · rintro rfl
    have h1 := c.isLt
    rw [if_pos ((field_eq_zero_iff _ _ _).2 (by rw [c16Word_toNat]; omega))]
    exact congrArg Except.ok (BitVec.eq_of_toNat_eq (by rw [field_toNat, c16Word_toNat]; omega))

/-- `W_XY` and `W_DIM`: a word is accepted exactly as the word of its two bytes. -/
theorem readPair_eq_ok_iff {w : Word} {p : Byte × Byte} : readPair w = .ok p ↔ pairWord p.1 p.2 = w := by
  unfold readPair
  have hw := w.isLt
  constructor
  · intro h
    split at h
    · rename_i h0
      rw [field_eq_zero_iff] at h0
      cases h
      apply BitVec.eq_of_toNat_eq
      rw [pairWord_toNat]
      simp only [field_toNat]; omega
    · cases h
  · rintro rfl
    have h1 := p.1.isLt
    have h2 := p.2.isLt
    rw [if_pos ((field_eq_zero_iff _ _ _).2 (by rw [pairWord_toNat]; omega))]
    refine congrArg Except.ok (Prod.ext ?_ ?_) <;>
    · apply BitVec.eq_of_toNat_eq
      rw [field_toNat, pairWord_toNat]; omega

/-- `W_ROT`: a word is accepted exactly as the word of its code. -/
theorem readRot_eq_ok_iff {w : Word} {o : Byte} : readRot w = .ok o ↔ rotWord o = w := by
  unfold readRot
  have hw := w.isLt
  constructor
  · intro h
    split at h
    · rename_i h0
      rw [field_eq_zero_iff] at h0
      cases h
      apply BitVec.eq_of_toNat_eq
      rw [rotWord_toNat, field_toNat]; omega
    · cases h
  · rintro rfl
    have h1 := o.isLt
    rw [if_pos ((field_eq_zero_iff _ _ _).2 (by rw [rotWord_toNat]; omega))]
    exact congrArg Except.ok (BitVec.eq_of_toNat_eq (by rw [field_toNat, rotWord_toNat]; omega))

@[simp] theorem readRgb_rgbWord (c : Rgb) : readRgb (rgbWord c) = .ok c := readRgb_eq_ok_iff.2 rfl
@[simp] theorem readC16_c16Word (c : Color16) : readC16 (c16Word c) = .ok c := readC16_eq_ok_iff.2 rfl
@[simp] theorem readPair_pairWord (lo hi : Byte) : readPair (pairWord lo hi) = .ok (lo, hi) := readPair_eq_ok_iff.2 rfl
@[simp] theorem readRot_rotWord (o : Byte) : readRot (rotWord o) = .ok o := readRot_eq_ok_iff.2 rfl

/-! ### Lists of operand words -/

/-- A list is accepted exactly as the words of its values, where each word is. -/
theorem readAll_eq_ok_iff {α : Type} {read : Word → Except Malformed α} {word : α → Word}
    (h : ∀ w a, read w = .ok a ↔ word a = w) {ws : List Word} {as : List α} :
    readAll read ws = .ok as ↔ as.map word = ws := by
  induction ws generalizing as with
  | nil => simp only [readAll, Except.ok.injEq, List.map_eq_nil_iff]; exact eq_comm
  | cons w ws ih =>
    simp only [readAll, except_bind_eq_ok, h, ih, pure, Except.pure, Except.ok.injEq]
    constructor
    · rintro ⟨a, rfl, as', rfl, rfl⟩; rfl
    · intro he
      cases as with
      | nil => cases he
      | cons a as' => simp only [List.map_cons, List.cons.injEq] at he; exact ⟨a, he.1, as', he.2, rfl⟩

/-- A glyph is its two halves, the high one first (30_encoding.md R61). -/
theorem hiWord_append_loWord (g : GlyphWord) : (hiWord g ++ loWord g : BitVec (32 + 32)) = g := by
  apply BitVec.eq_of_getLsbD_eq
  intro i hi
  simp only [hiWord, loWord, BitVec.getLsbD_append, BitVec.getLsbD_extractLsb']
  by_cases h : i < 32
  · simp [h]
  · simp [h, show i - 32 < 32 by omega, show 32 + (i - 32) = i by omega]

@[simp] theorem hiWord_append (hi lo : Word) : hiWord (hi ++ lo) = hi := by
  apply BitVec.eq_of_getLsbD_eq
  intro i hi'
  have h := BitVec.getLsbD_append (x := hi) (y := lo) (i := 32 + i)
  simp only [hiWord, BitVec.getLsbD_extractLsb', hi', decide_true, Bool.true_and]
  rw [h, if_neg (by omega), Nat.add_sub_cancel_left]

@[simp] theorem loWord_append (hi lo : Word) : loWord (hi ++ lo) = lo := by
  apply BitVec.eq_of_getLsbD_eq
  intro i hi'
  have h := BitVec.getLsbD_append (x := hi) (y := lo) (i := i)
  simp only [loWord, BitVec.getLsbD_extractLsb', hi', decide_true, Bool.true_and, Nat.zero_add]
  rw [h, if_pos hi']

@[simp] theorem glyphWords_length (gs : List GlyphWord) : (glyphWords gs).length = 2 * gs.length := by
  induction gs with
  | nil => rfl
  | cons g gs ih => simp only [glyphWords, List.length_cons, ih]; omega

@[simp] theorem readGlyphs_glyphWords (gs : List GlyphWord) : readGlyphs (glyphWords gs) = gs := by
  induction gs with
  | nil => rfl
  | cons g gs ih => simp only [glyphWords, readGlyphs, ih, hiWord_append_loWord]

/-- An even number of words is the words of the glyphs read from it. -/
theorem glyphWords_readGlyphs {n : Nat} {ws : List Word} (h : ws.length = 2 * n) : glyphWords (readGlyphs ws) = ws := by
  induction n generalizing ws with
  | zero => cases ws <;> simp_all [readGlyphs, glyphWords]
  | succ n ih =>
    match ws, h with
    | hi :: lo :: rest, h =>
      simp only [readGlyphs, glyphWords, hiWord_append, loWord_append]
      rw [ih (by simp only [List.length_cons] at h; omega)]

theorem glyphTable_eq_some_iff {gs : List GlyphWord} {t : GlyphTable} : glyphTable gs = some t ↔ t.toList = gs := by
  unfold glyphTable
  constructor
  · intro h
    split at h
    · cases h; rfl
    · cases h
  · rintro rfl
    rw [dif_pos (by simp)]
    rfl

/-! ### Payload shapes -/

theorem payload0_eq_ok_iff {i j : Instr} {p : List Word} : payload0 i p = .ok j ↔ p = [] ∧ i = j := by
  unfold payload0; split <;> simp_all

theorem payload1_eq_ok_iff {read : Word → Except Malformed Instr} {p : List Word} {i : Instr} :
    payload1 read p = .ok i ↔ ∃ w, p = [w] ∧ read w = .ok i := by
  unfold payload1; split <;> simp_all

theorem payload2_eq_ok_iff {read : Word → Word → Except Malformed Instr} {p : List Word} {i : Instr} :
    payload2 read p = .ok i ↔ ∃ w v, p = [w, v] ∧ read w v = .ok i := by
  unfold payload2; split <;> simp_all

/-! ### The selectors -/

@[simp] theorem bufSelBit_bufSelOf (b : Bool) : bufSelBit (bufSelOf b) = b := by cases b <;> rfl
@[simp] theorem bufSelOf_bufSelBit (sel : BufSel) : bufSelOf (bufSelBit sel) = sel := by cases sel <;> rfl
@[simp] theorem fontSelBit_fontSelOf (b : Bool) : fontSelBit (fontSelOf b) = b := by cases b <;> rfl
@[simp] theorem fontSelOf_fontSelBit (sel : FontSel) : fontSelOf (fontSelBit sel) = sel := by cases sel <;> rfl

/-! ### Framing (30_encoding.md R52) -/

/-- A header followed by exactly its payload is taken whole, and the stream stays in step. -/
theorem takePacket_of_length {h : Word} {p rest : List Word} (hp : p.length = lenField h) :
    takePacket (h :: (p ++ rest)) = .packet h p rest := by
  simp [takePacket, ← hp]

theorem takePacket_of_short {h : Word} {tail : List Word} (ht : tail.length < lenField h) :
    takePacket (h :: tail) = .incomplete := by simp [takePacket, ht]

end Sys2Proof
end

