-- ==== Sys2Proof/Laws/State.lean ====
section
/-! SUPPORT. One lemma per field per update of State, true by unfolding, so that later proofs never unfold a record update. -/

namespace Sys2Proof.Machine

/-! ### `respond` -/

@[simp] theorem respond_life (opc st ws s) : (respond opc st ws s).life = s.life := rfl
@[simp] theorem respond_dfontGlyphs (opc st ws s) : (respond opc st ws s).dfontGlyphs = s.dfontGlyphs := rfl
@[simp] theorem respond_ufont (opc st ws s) : (respond opc st ws s).ufont = s.ufont := rfl
@[simp] theorem respond_cancel (opc st ws s) : (respond opc st ws s).cancel = s.cancel := rfl
@[simp] theorem respond_alloc (opc st ws s) : (respond opc st ws s).alloc = s.alloc := rfl
@[simp] theorem respond_cmd (opc st ws s) : (respond opc st ws s).cmd = s.cmd := rfl
@[simp] theorem respond_inputs (opc st ws s) : (respond opc st ws s).inputs = s.inputs := rfl
@[simp] theorem respond_rsp (opc st ws s) :
    (respond opc st ws s).rsp = s.rsp ++ responseHeader opc st ws.length :: ws := rfl

/-! ### `raiseStatus` -/

@[simp] theorem raiseStatus_life (opc st s) : (raiseStatus opc st s).life = s.life := rfl
@[simp] theorem raiseStatus_dfontGlyphs (opc st s) : (raiseStatus opc st s).dfontGlyphs = s.dfontGlyphs := rfl
@[simp] theorem raiseStatus_ufont (opc st s) : (raiseStatus opc st s).ufont = s.ufont := rfl
@[simp] theorem raiseStatus_cancel (opc st s) : (raiseStatus opc st s).cancel = s.cancel := rfl
@[simp] theorem raiseStatus_alloc (opc st s) : (raiseStatus opc st s).alloc = s.alloc := rfl
@[simp] theorem raiseStatus_cmd (opc st s) : (raiseStatus opc st s).cmd = s.cmd := rfl
@[simp] theorem raiseStatus_inputs (opc st s) : (raiseStatus opc st s).inputs = s.inputs := rfl
@[simp] theorem raiseStatus_rsp (opc st s) :
    (raiseStatus opc st s).rsp = s.rsp ++ [responseHeader opc st 0] := rfl

/-! ### `setDisplay` -/

@[simp] theorem setDisplay_life (s d) : (setDisplay s d).life = .active d := rfl
@[simp] theorem setDisplay_dfontGlyphs (s d) : (setDisplay s d).dfontGlyphs = s.dfontGlyphs := rfl
@[simp] theorem setDisplay_ufont (s d) : (setDisplay s d).ufont = s.ufont := rfl
@[simp] theorem setDisplay_cancel (s d) : (setDisplay s d).cancel = s.cancel := rfl
@[simp] theorem setDisplay_alloc (s d) : (setDisplay s d).alloc = s.alloc := rfl
@[simp] theorem setDisplay_cmd (s d) : (setDisplay s d).cmd = s.cmd := rfl
@[simp] theorem setDisplay_rsp (s d) : (setDisplay s d).rsp = s.rsp := rfl
@[simp] theorem setDisplay_inputs (s d) : (setDisplay s d).inputs = s.inputs := rfl

/-! ### `resetEvent` -/

@[simp] theorem resetEvent_life (s) : (resetEvent s).life = .uninitialized := rfl
@[simp] theorem resetEvent_dfontGlyphs (s) : (resetEvent s).dfontGlyphs = s.dfontGlyphs := rfl
@[simp] theorem resetEvent_ufont (s) : (resetEvent s).ufont = none := rfl
@[simp] theorem resetEvent_cancel (s) : (resetEvent s).cancel = s.cancel := rfl
@[simp] theorem resetEvent_alloc (s) : (resetEvent s).alloc = s.alloc := rfl
@[simp] theorem resetEvent_cmd (s) : (resetEvent s).cmd = [] := rfl
@[simp] theorem resetEvent_rsp (s) : (resetEvent s).rsp = s.rsp := rfl
@[simp] theorem resetEvent_inputs (s) : (resetEvent s).inputs = s.inputs := rfl

/-! ### `takeInput` -/

@[simp] theorem takeInput_life (s) : (takeInput s).life = s.life := by unfold takeInput; split <;> rfl
@[simp] theorem takeInput_dfontGlyphs (s) : (takeInput s).dfontGlyphs = s.dfontGlyphs := by
  unfold takeInput; split <;> rfl
@[simp] theorem takeInput_ufont (s) : (takeInput s).ufont = s.ufont := by unfold takeInput; split <;> rfl
@[simp] theorem takeInput_rsp (s) : (takeInput s).rsp = s.rsp := by unfold takeInput; split <;> rfl
@[simp] theorem takeInput_inputs (s) : (takeInput s).inputs = s.inputs.tail := by
  unfold takeInput; split <;> simp_all

/-- With no input left a step starts from the state itself. -/
theorem takeInput_of_nil {s : State} (h : s.inputs = []) : takeInput s = s := by
  unfold takeInput; rw [h]

/-- With no input left no reset is pending. -/
theorem resetPending_of_nil {s : State} (h : s.inputs = []) : resetPending s = false := by
  unfold resetPending; rw [h]

/-! ### `doPresent`, `presentIf` -/

@[simp] theorem doPresent_back (d) : (doPresent d).back = d.back := rfl
@[simp] theorem doPresent_rot (d) : (doPresent d).rot = d.rot := rfl
@[simp] theorem doPresent_scroll (d) : (doPresent d).scroll = d.scroll := rfl
@[simp] theorem presentIf_back (r d) : (presentIf r d).back = d.back := by cases r <;> rfl
@[simp] theorem presentIf_rot (r d) : (presentIf r d).rot = d.rot := by cases r <;> rfl
@[simp] theorem presentIf_scroll (r d) : (presentIf r d).scroll = d.scroll := by cases r <;> rfl
@[simp] theorem presentIf_true (d) : presentIf true d = doPresent d := rfl
@[simp] theorem presentIf_false (d) : presentIf false d = d := rfl

/-! ### Readings of the life cycle -/

theorem dstate_eq_active_iff {s : State} : s.dstate = .active ↔ ∃ d, s.life = .active d := by
  unfold State.dstate; split <;> simp_all

theorem display_of_active {s : State} {d : Display} (h : s.life = .active d) : s.display = some d := by
  unfold State.display; rw [h]

theorem scroll_of_active {s : State} {d : Display} (h : s.life = .active d) : s.scroll = d.scroll := by
  unfold State.scroll; rw [h]

/-- A scroll in flight has a Display under it. -/
theorem scroll_running_iff {s : State} {r : ScrollRun} :
    s.scroll = .running r ↔ ∃ d, s.life = .active d ∧ d.scroll = .running r := by
  unfold State.scroll; split <;> simp_all

end Sys2Proof.Machine
end

