-- ==== Sys2Proof/Laws/Ops.lean ====
section
/-! SUPPORT. For each shared operation, once, everything it can do; later proofs cite these and do not unfold the operations. -/

namespace Sys2Proof.Machine

/-! ### `Except` in the meanings' `do` blocks -/

@[simp] theorem except_ok_bind {ε α β : Type} (a : α) (f : α → Except ε β) : (Except.ok a >>= f) = f a := rfl
@[simp] theorem except_error_bind {ε α β : Type} (e : ε) (f : α → Except ε β) :
    (Except.error e >>= f) = Except.error e := rfl
@[simp] theorem except_pure {ε α : Type} (a : α) : (pure a : Except ε α) = .ok a := rfl

/-! ### Responses -/

/-- A response header as a number (30_encoding.md R54). -/
theorem responseHeader_toNat (opc : Byte) (st : Status) (n : Nat) (hn : n < 65536) :
    (responseHeader opc st n).toNat = opc.toNat * 2 ^ 24 + (statusCode st).toNat * 2 ^ 16 + n := by
  have h1 := opc.isLt
  have h2 := (statusCode st).isLt
  simp only [responseHeader, BitVec.toNat_append, BitVec.toNat_ofNat]
  rw [← Nat.shiftLeft_add_eq_or_of_lt (by omega), ← Nat.shiftLeft_add_eq_or_of_lt (by omega)]
  simp only [Nat.shiftLeft_eq]
  omega

@[simp] theorem finish_ok (op : Op) (s t : State) (ws : List Word) :
    finish op s (.ok (t, ws)) = .next (respond op.opc .ok ws t) := rfl
@[simp] theorem finish_error (op : Op) (s : State) (st : Status) :
    finish op s (.error st) = .next (raiseStatus op.opc st s) := rfl

/-- A command that ends through `finish` answers `OK` with what its pseudocode wrote, or raises and keeps the state it found. -/
theorem finish_next {op : Op} {s u : State} {a : Answer} (h : finish op s a = .next u) :
    (∃ t ws, a = .ok (t, ws) ∧ u = respond op.opc .ok ws t) ∨
    (∃ st, a = .error st ∧ u = raiseStatus op.opc st s) := by
  rcases a with st | ⟨t, ws⟩
  · exact .inr ⟨st, rfl, by simpa using h.symm⟩
  · exact .inl ⟨t, ws, rfl, by simpa using h.symm⟩

/-- `finish` always answers a next state. -/
theorem finish_answers (op : Op) (s : State) (a : Answer) : ∃ u, finish op s a = .next u := by
  rcases a with st | ⟨t, ws⟩ <;> exact ⟨_, rfl⟩

/-! ### The life-cycle check -/

theorem needActive_of_active {s : State} {d : Display} (h : s.life = .active d) : needActive s = .ok d := by
  unfold needActive; rw [h]

theorem needActive_of_not_active {s : State} (h : s.dstate ≠ .active) : needActive s = .error .notActive := by
  unfold needActive; unfold State.dstate at h; split <;> simp_all

/-- `needActive` answers the Display or `NotActive`, and nothing else. -/
theorem needActive_cases (s : State) :
    (∃ d, s.life = .active d ∧ needActive s = .ok d) ∨ (s.dstate ≠ .active ∧ needActive s = .error .notActive) := by
  unfold needActive State.dstate; split <;> simp_all

/-! ### Coordinates and cells -/

theorem bufIndex_of_le {x y : Byte} (i : Fin 64) (hx : x.toNat ≤ 7) (hy : y.toNat ≤ 7)
    (hi : i.val = 8 * y.toNat + x.toNat) : bufIndex x y = .ok i := by
  unfold bufIndex
  rw [dif_pos ⟨hx, hy⟩]
  exact congrArg Except.ok (Fin.ext (by simp [cellOf, hi]))

theorem bufIndex_of_gt {x y : Byte} (h : 7 < x.toNat ∨ 7 < y.toNat) : bufIndex x y = .error .outOfRange := by
  unfold bufIndex; rw [dif_neg (by omega)]

/-- `bufIndex` answers the cell or `OutOfRange`, and nothing else. -/
theorem bufIndex_cases (x y : Byte) :
    (∃ i : Fin 64, x.toNat ≤ 7 ∧ y.toNat ≤ 7 ∧ i.val = 8 * y.toNat + x.toNat ∧ bufIndex x y = .ok i) ∨
    ((7 < x.toNat ∨ 7 < y.toNat) ∧ bufIndex x y = .error .outOfRange) := by
  by_cases h : x.toNat ≤ 7 ∧ y.toNat ≤ 7
  · exact .inl ⟨⟨8 * y.toNat + x.toNat, by omega⟩, h.1, h.2, rfl, bufIndex_of_le _ h.1 h.2 rfl⟩
  · exact .inr ⟨by omega, bufIndex_of_gt (by omega)⟩

@[simp] theorem colOf_cellOf (x y : Fin 8) : colOf (cellOf x y) = x := Fin.ext (by simp only [colOf, cellOf]; omega)
@[simp] theorem rowOf_cellOf (x y : Fin 8) : rowOf (cellOf x y) = y := Fin.ext (by simp only [rowOf, cellOf]; omega)
@[simp] theorem cellOf_colOf_rowOf (i : Fin 64) : cellOf (colOf i) (rowOf i) = i :=
  Fin.ext (by simp only [cellOf, colOf, rowOf]; omega)

/-- `(y << 3) | x` is `8*y + x` for a column and a row of the grid (20_memory.md R31). -/
theorem shift_or_eq_cell : ∀ x y : Fin 8, y.val <<< 3 ||| x.val = 8 * y.val + x.val := by decide

/-! ### Buffers -/

@[simp] theorem bufFill_getElem (c : Color16) (n : Nat) (h : n < 64) : (bufFill c)[n] = c := by simp [bufFill]

theorem bufWriteAll_of_length {values : List Color16} (h : values.length = 64) :
    ∃ buf, bufWriteAll values = .ok buf ∧ ∀ i : Fin 64, values[i.val]? = some buf[i] := by
  refine ⟨⟨values.toArray, by simpa using h⟩, by simp [bufWriteAll, h], fun i => ?_⟩
  have hi : i.val < values.length := by omega
  simp [List.getElem?_eq_getElem hi]

theorem bufWriteAll_of_other {values : List Color16} (h : values.length ≠ 64) :
    bufWriteAll values = .error .lengthMismatch := by simp [bufWriteAll, h]

/-- Two buffers with the same cells are the same. -/
theorem buffer_ext {a b : Buffer} (h : ∀ i : Fin 64, a[i] = b[i]) : a = b :=
  Vector.ext fun i hi => h ⟨i, hi⟩

/-! ### Rotation -/

@[simp] theorem rotApply_getElem (o : Orientation) (src : Buffer) (n : Nat) (h : n < 64) :
    (rotApply o src)[n] = src[(rotSource o (colOf ⟨n, h⟩) (rowOf ⟨n, h⟩)).val] := by simp [rotApply]

/-- R102 reads at the destination what R100 writes there. -/
theorem rotSource_rotIndex (o : Orientation) (x y : Fin 8) :
    rotSource o (colOf (rotIndex o x y)) (rowOf (rotIndex o x y)) = cellOf x y := by
  cases o <;> simp [rotSource, rotIndex]

/-- Each source pixel stands at its destination cell (42_rotation.md R101). -/
theorem rotApply_at_rotIndex (o : Orientation) (src : Buffer) (x y : Fin 8) :
    (rotApply o src)[rotIndex o x y] = src[cellOf x y] := by
  simp [rotSource_rotIndex]

/-- The identity case may be modelled either way (42_rotation.md R103). -/
theorem rotApply_identity (src : Buffer) : rotApply .identity src = src :=
  buffer_ext fun i => by simp [rotSource]

theorem doPresent_front (d : Display) : (doPresent d).front = rotApply d.rot d.back := by
  unfold doPresent
  by_cases h : d.rot = .identity
  · simp [h, bufCopy, rotApply_identity]
  · simp [h]

/-! ### Fonts -/

theorem selectFont_cases (s : State) (sel : FontSel) :
    (∃ f, selectFont s sel = .ok f) ∨ (sel = .user ∧ s.ufont = none ∧ selectFont s sel = .error .invalidFont) := by
  cases sel
  · exact .inl ⟨s.dfont, rfl⟩
  · cases h : s.ufont with
    | some f => exact .inl ⟨f, by simp [selectFont, h]⟩
    | none => exact .inr ⟨rfl, rfl, by simp [selectFont, h]⟩

theorem glyphIndex_eq_some_iff {ch : Word} {k : Fin 95} : glyphIndex ch = some k ↔ ch.toNat = 0x20 + k.val := by
  unfold glyphIndex
  split
  · simp only [Option.some.injEq, Fin.ext_iff]; omega
  · have := k.isLt
    simp only [reduceCtorEq, false_iff]; omega

theorem glyphIndex_eq_none_iff {ch : Word} : glyphIndex ch = none ↔ ch.toNat < 0x20 ∨ 0x7E < ch.toNat := by
  unfold glyphIndex
  split
  · simp only [reduceCtorEq, false_iff]; omega
  · simp only [true_iff]; omega

end Sys2Proof.Machine
end

