-- ==== Sys2Proof/Laws/Codec.lean ====
section
/-! SUPPORT. The words and colours the machine computes, as the arithmetic the claims are stated in. -/

namespace Sys2Proof.Machine

open Sys2Proof.Safety

/-- A response header is the number `headerNat` writes (30_encoding.md R54). -/
theorem responseHeader_eq (op : Op) (st : Status) {n : Nat} (hn : n < 65536) :
    responseHeader op.opc st n = headerNat op.opc.toNat (statusCode st).toNat n := by
  apply BitVec.eq_of_toNat_eq
  have h1 := op.opc.isLt
  have h2 := (statusCode st).isLt
  rw [responseHeader_toNat _ _ _ hn, headerNat, BitVec.toNat_ofNat, Nat.mod_eq_of_lt (by omega)]

/-- A raised status as one emitted word. -/
theorem raiseStatus_eq (op : Op) (st : Status) (s : State) :
    raiseStatus op.opc st s = { s with rsp := s.rsp ++ [headerNat op.opc.toNat (statusCode st).toNat 0] } := by
  unfold raiseStatus respond; rw [responseHeader_eq op st (by simp)]; rfl

/-- A response as emitted words. -/
theorem respond_eq (op : Op) (st : Status) {ws : List Word} (s : State) (hn : ws.length < 65536) :
    respond op.opc st ws s = { s with rsp := s.rsp ++ headerNat op.opc.toNat (statusCode st).toNat ws.length :: ws } := by
  unfold respond; rw [responseHeader_eq op st hn]

/-- `pack565` as a number (40_colorcodec.md R80). -/
theorem pack565_toNat (r g b : Byte) : (pack565 r g b).toNat = packedNat r g b := by
  have h1 := r.isLt
  have h2 := g.isLt
  have h3 := b.isLt
  simp only [pack565, packedNat, BitVec.toNat_append, BitVec.extractLsb'_toNat, Nat.shiftRight_eq_div_pow]
  rw [← Nat.shiftLeft_add_eq_or_of_lt (by omega), ← Nat.shiftLeft_add_eq_or_of_lt (by omega)]
  simp only [Nat.shiftLeft_eq]
  omega

/-- The components of a colour as numbers (40_colorcodec.md R82). -/
theorem unpack565_toNat (c : Color16) :
    (unpack565 c).r.toNat = c.toNat / 2048 ∧ (unpack565 c).g.toNat = c.toNat / 32 % 64 ∧
    (unpack565 c).b.toNat = c.toNat % 32 := by
  have := c.isLt
  simp [unpack565, Nat.shiftRight_eq_div_pow]
  omega

/-- Bits of the unmasked OR (40_colorcodec.md R81). -/
theorem pack565raw_getLsbD (r5 g6 b5 : Byte) {k : Nat} (hk : k < 16) :
    (pack565raw r5 g6 b5).getLsbD k = rawBit r5 g6 b5 k := by
  simp only [pack565raw, rawBit]
  have h5 : decide (5 ≤ k) = !decide (k < 5) := by rw [← decide_not]; simp only [Nat.not_lt]
  have h11 : decide (11 ≤ k) = !decide (k < 11) := by rw [← decide_not]; simp only [Nat.not_lt]
  rw [h5, h11]
  simp [hk]

/-- `zext_32` of a colour. -/
theorem c16Word_eq (c : Color16) : c16Word c = BitVec.ofNat 32 c.toNat := by
  apply BitVec.eq_of_toNat_eq
  have := c.isLt
  rw [c16Word_toNat]; simp; omega

/-- A `W_RGB` word in the claims' arithmetic (30_encoding.md R53). -/
theorem rgbWord_eq (r g b : Byte) : rgbWord { r := r, g := g, b := b } = rgbNat r g b := by
  apply BitVec.eq_of_toNat_eq
  have h1 := r.isLt
  have h2 := g.isLt
  have h3 := b.isLt
  rw [rgbWord_toNat, rgbNat, BitVec.toNat_ofNat, Nat.mod_eq_of_lt (by omega)]; norm_num

/-- A `W_XY` or `W_DIM` word in the claims' arithmetic (30_encoding.md R53). -/
theorem pairWord_eq (lo hi : Byte) : pairWord lo hi = pairNat lo hi := by
  apply BitVec.eq_of_toNat_eq
  have h1 := lo.isLt
  have h2 := hi.isLt
  rw [pairWord_toNat, pairNat, BitVec.toNat_ofNat, Nat.mod_eq_of_lt (by omega)]; norm_num

/-- A command header in the claims' arithmetic (30_encoding.md R51). -/
theorem headerWord_eq (op : Op) (bit : Bool) {n : Nat} (hn : n < 65536) :
    headerWord op bit n = headerNat op.opc.toNat bit.toNat n := by
  apply BitVec.eq_of_toNat_eq
  have h1 := op.opc.isLt
  have h2 := bit.toNat_lt
  rw [headerWord_toNat _ _ _ hn, headerNat, BitVec.toNat_ofNat, Nat.mod_eq_of_lt (by omega)]

end Sys2Proof.Machine
end

