-- ==== Sys2Proof/Laws/Exec.lean ====
section
/-! SUPPORT. Once, for every command, everything `exec` can do with it: raise one of its statuses, or answer `OK` with the elements it
writes. The rules about every command follow from `exec_cases` without unfolding a meaning. -/

namespace Sys2Proof.Machine

open Sys2Proof.Safety

/-- The state a command that answers `OK` leaves, before its response is emitted. -/
inductive Wrote : Instr → State → State → Prop
  /-- nothing written: the reads, the colour codec, `RELEASE` outside Active -/
  | nothing {i : Instr} {s : State} : readsOnly i.op = true ∨ (i = .release ∧ s.dstate ≠ .active) → Wrote i s s
  | init {s : State} : s.dstate ≠ .active → s.alloc = .ok → Wrote .init s (setDisplay s freshDisplay)
  | release {s : State} {d : Display} : s.life = .active d → Wrote .release s { s with life := .released }
  /-- `back` alone, by one of the seven commands that draw and do not present -/
  | back {i : Instr} {s : State} {d : Display} (b : Buffer) : s.life = .active d → idempotentWrite i.op = true →
      writesElem i .back = true → writesElem i .front = false → Wrote i s (setDisplay s { d with back := b })
  | clear {r : Bool} {s : State} {d : Display} : s.life = .active d →
      Wrote (.clear r) s (setDisplay s (presentIf r { d with back := bufFill 0 }))
  | setRot {r : Bool} {o : Byte} {s : State} {d : Display} (rot : Orientation) : s.life = .active d → orientationOf o = .ok rot →
      Wrote (.setRot r o) s (setDisplay s (presentIf r { d with rot := rot }))
  | present {s : State} {d : Display} : s.life = .active d → Wrote .present s (setDisplay s (doPresent d))
  | font {s : State} {w h : Byte} {glyphs : GlyphTable} : w.toNat * h.toNat ≤ 64 →
      Wrote (.loadFont w h glyphs) s { s with ufont := some { w := w, h := h, glyphs := glyphs } }

/-- What a command comes to. -/
inductive Ended (i : Instr) (s : State) : State → Prop
  | raised (st : Status) : mayRaise i.op st = true → Ended i s (raiseStatus i.op.opc st s)
  | answered {u : State} (ws : List Word) : ws.length = resultLength i.op → Wrote i s u → Ended i s (respond i.op.opc .ok ws u)
  | started {sel : FontSel} {c : Color16} {delay : Word} {msg : List Word} {d : Display} {f : Font} :
      i = .scroll sel c delay msg → s.life = .active d → selectFont s sel = .ok f → f.h.toNat ≤ 8 →
      Ended i s (setDisplay s
        { d with scroll := .running { cols := buildColumns f msg, pos := 0, color := c, delay := delay, count := 0 } })

/-- A command that needs the Display raises `NotActive` or goes on with it. -/
theorem finish_needActive {op : Op} {s t : State} {k : Display → Answer} (h : finish op s (needActive s >>= k) = .next t) :
    t = raiseStatus op.opc .notActive s ∨ ∃ d, s.life = .active d ∧ finish op s (k d) = .next t := by
  rcases needActive_cases s with ⟨d, hd, e⟩ | ⟨_, e⟩ <;> rw [e] at h
  · exact .inr ⟨d, hd, h⟩
  · exact .inl (by simpa using h.symm)

/-- The same for any check that can fail with one status only. -/
theorem finish_check {α : Type} {op : Op} {s t : State} {x : Except Status α} {st : Status} {k : α → Answer}
    (hx : ∀ e, x = .error e → e = st) (h : finish op s (x >>= k) = .next t) :
    t = raiseStatus op.opc st s ∨ ∃ a, x = .ok a ∧ finish op s (k a) = .next t := by
  cases x with
  | ok a => exact .inr ⟨a, rfl, h⟩
  | error e => cases hx e rfl; exact .inl (by simpa using h.symm)

theorem bufGet_error {buf : Buffer} {x y : Byte} {e : Status} (h : bufGet buf x y = .error e) : e = .outOfRange := by
  rcases bufIndex_cases x y with ⟨i, -, -, -, hi⟩ | ⟨-, hi⟩ <;> simp_all [bufGet]

theorem bufSet_error {buf : Buffer} {x y : Byte} {c : Color16} {e : Status} (h : bufSet buf x y c = .error e) :
    e = .outOfRange := by
  rcases bufIndex_cases x y with ⟨i, -, -, -, hi⟩ | ⟨-, hi⟩ <;> simp_all [bufSet]

theorem bufWriteAll_error {values : List Color16} {e : Status} (h : bufWriteAll values = .error e) : e = .lengthMismatch := by
  unfold bufWriteAll at h; split at h <;> simp_all

theorem bitmapBuffer_error {w h : Byte} {pixels : List Rgb} {e : Status} (he : bitmapBuffer w h pixels = .error e) :
    e = .invalidDimensions := by
  unfold bitmapBuffer at he; split at he
  · split at he <;> simp_all
  · simp_all

theorem orientationOf_error {o : Byte} {e : Status} (h : orientationOf o = .error e) : e = .outOfRange := by
  unfold orientationOf at h; split at h <;> simp_all

theorem selectFont_error {s : State} {sel : FontSel} {e : Status} (h : selectFont s sel = .error e) : e = .invalidFont := by
  rcases selectFont_cases s sel with ⟨f, hf⟩ | ⟨-, -, hf⟩ <;> simp_all

theorem lookUpGlyph_error {f : Font} {ch : Word} {e : Status} (h : lookUpGlyph f ch = .error e) : e = .unsupportedChar := by
  unfold lookUpGlyph at h; split at h <;> simp_all

theorem letterBuffer_error {f : Font} {ch : Word} {c : Color16} {back : Buffer} {e : Status}
    (h : letterBuffer f ch c back = .error e) : e = .outOfRange := by
  unfold letterBuffer at h; split at h
  · simp_all
  · split at h <;> simp_all

/-- `finish` on a value. -/
theorem finish_ok_next {op : Op} {s t u : State} {ws : List Word} (h : finish op s (.ok (u, ws)) = .next t) :
    t = respond op.opc .ok ws u := by simpa using h.symm

/-- Everything a command can do. -/
theorem exec_cases {i : Instr} {s t : State} (h : exec i s = .next t) : Ended i s t := by
  cases i with
  | pack888 | packRaw | unpack565 | unpack888 =>
    cases finish_ok_next (s := s) h; exact .answered (i := _) _ rfl (.nothing (.inl rfl))
  | init =>
    simp only [exec, execInit] at h
    split at h
    · cases h; exact .raised (i := .init) _ rfl
    · cases h; exact .raised (i := .init) _ rfl
    · rename_i ha hn
      cases finish_ok_next h
      refine .answered (i := .init) _ rfl (.init ?_ ha)
      intro hd; obtain ⟨d, hd⟩ := dstate_eq_active_iff.1 hd; exact hn d hd
  | release =>
    simp only [exec, execRelease] at h
    split at h <;> cases finish_ok_next h
    · exact .answered (i := .release) _ rfl (.release ‹_›)
    · rename_i hl; exact .answered (i := .release) _ rfl (.nothing (.inr ⟨rfl, by simp [State.dstate, hl]⟩))
    · rename_i hl; exact .answered (i := .release) _ rfl (.nothing (.inr ⟨rfl, by simp [State.dstate, hl]⟩))
  | getPix sel x y =>
    obtain rfl | ⟨d, -, h⟩ := finish_needActive h
    · exact .raised (i := .getPix sel x y) _ rfl
    obtain rfl | ⟨c, -, h⟩ := finish_check (fun _ => bufGet_error) h
    · exact .raised (i := .getPix sel x y) _ rfl
    cases finish_ok_next h; exact .answered (i := .getPix sel x y) _ rfl (.nothing (.inl rfl))
  | getPixRaw sel x y =>
    obtain rfl | ⟨d, -, h⟩ := finish_needActive h
    · exact .raised (i := .getPixRaw sel x y) _ rfl
    obtain rfl | ⟨c, -, h⟩ := finish_check (fun _ => bufGet_error) h
    · exact .raised (i := .getPixRaw sel x y) _ rfl
    cases finish_ok_next h; exact .answered (i := .getPixRaw sel x y) _ rfl (.nothing (.inl rfl))
  | getAllRaw sel =>
    obtain rfl | ⟨d, -, h⟩ := finish_needActive h
    · exact .raised (i := .getAllRaw sel) _ rfl
    cases finish_ok_next h
    exact .answered (i := .getAllRaw sel) _ (by simp [bufReadAll, resultLength, Instr.op]) (.nothing (.inl rfl))
  | setPix x y r g b =>
    obtain rfl | ⟨d, hd, h⟩ := finish_needActive h
    · exact .raised (i := .setPix x y r g b) _ rfl
    obtain rfl | ⟨back, -, h⟩ := finish_check (fun _ => bufSet_error) h
    · exact .raised (i := .setPix x y r g b) _ rfl
    cases finish_ok_next h; exact .answered (i := .setPix x y r g b) _ rfl (.back back hd rfl rfl rfl)
  | setPixRaw x y r g b =>
    obtain rfl | ⟨d, hd, h⟩ := finish_needActive h
    · exact .raised (i := .setPixRaw x y r g b) _ rfl
    obtain rfl | ⟨back, -, h⟩ := finish_check (fun _ => bufSet_error) h
    · exact .raised (i := .setPixRaw x y r g b) _ rfl
    cases finish_ok_next h; exact .answered (i := .setPixRaw x y r g b) _ rfl (.back back hd rfl rfl rfl)
  | setAllRaw values =>
    obtain rfl | ⟨d, hd, h⟩ := finish_needActive h
    · exact .raised (i := .setAllRaw values) _ rfl
    obtain rfl | ⟨back, -, h⟩ := finish_check (fun _ => bufWriteAll_error) h
    · exact .raised (i := .setAllRaw values) _ rfl
    cases finish_ok_next h; exact .answered (i := .setAllRaw values) _ rfl (.back back hd rfl rfl rfl)
  | fill c =>
    obtain rfl | ⟨d, hd, h⟩ := finish_needActive h
    · exact .raised (i := .fill c) _ rfl
    cases finish_ok_next h; exact .answered (i := .fill c) _ rfl (.back _ hd rfl rfl rfl)
  | clear redraw =>
    obtain rfl | ⟨d, hd, h⟩ := finish_needActive h
    · exact .raised (i := .clear redraw) _ rfl
    cases finish_ok_next h; exact .answered (i := .clear redraw) _ rfl (.clear hd)
  | drawBitmap w v pixels =>
    obtain rfl | ⟨d, hd, h⟩ := finish_needActive h
    · exact .raised (i := .drawBitmap w v pixels) _ rfl
    obtain rfl | ⟨back, -, h⟩ := finish_check (fun _ => bitmapBuffer_error) h
    · exact .raised (i := .drawBitmap w v pixels) _ rfl
    cases finish_ok_next h; exact .answered (i := .drawBitmap w v pixels) _ rfl (.back back hd rfl rfl rfl)
  | setRot redraw o =>
    obtain rfl | ⟨d, hd, h⟩ := finish_needActive h
    · exact .raised (i := .setRot redraw o) _ rfl
    obtain rfl | ⟨rot, hr, h⟩ := finish_check (fun _ => orientationOf_error) h
    · exact .raised (i := .setRot redraw o) _ rfl
    cases finish_ok_next h; exact .answered (i := .setRot redraw o) _ rfl (.setRot rot hd hr)
  | present =>
    obtain rfl | ⟨d, hd, h⟩ := finish_needActive h
    · exact .raised (i := .present) _ rfl
    cases finish_ok_next h; exact .answered (i := .present) _ rfl (.present hd)
  | glyphBits sel ch =>
    obtain rfl | ⟨f, -, h⟩ := finish_check (fun _ => selectFont_error) h
    · exact .raised (i := .glyphBits sel ch) _ rfl
    obtain rfl | ⟨g, -, h⟩ := finish_check (fun _ => lookUpGlyph_error) h
    · exact .raised (i := .glyphBits sel ch) _ rfl
    cases finish_ok_next h; exact .answered (i := .glyphBits sel ch) _ rfl (.nothing (.inl rfl))
  | loadFont w v glyphs =>
    simp only [exec, execLoadFont] at h
    split at h
    · cases h; exact .raised (i := .loadFont w v glyphs) _ rfl
    · cases finish_ok_next h; exact .answered (i := .loadFont w v glyphs) _ rfl (.font (by omega))
  | drawLetter sel ch c =>
    obtain rfl | ⟨d, hd, h⟩ := finish_needActive h
    · exact .raised (i := .drawLetter sel ch c) _ rfl
    obtain rfl | ⟨f, -, h⟩ := finish_check (fun _ => selectFont_error) h
    · exact .raised (i := .drawLetter sel ch c) _ rfl
    obtain rfl | ⟨back, -, h⟩ := finish_check (fun _ => letterBuffer_error) h
    · exact .raised (i := .drawLetter sel ch c) _ rfl
    cases finish_ok_next h; exact .answered (i := .drawLetter sel ch c) _ rfl (.back back hd rfl rfl rfl)
  | scroll sel c delay msg =>
    simp only [exec, execScroll, startScroll] at h
    rcases needActive_cases s with ⟨d, hd, e⟩ | ⟨-, e⟩ <;> rw [e] at h
    · cases hf : selectFont s sel with
      | error e =>
        cases selectFont_error hf
        rw [hf] at h; cases h; exact .raised (i := .scroll sel c delay msg) _ rfl
      | ok f =>
        rw [hf] at h
        simp only [except_ok_bind] at h
        by_cases hh : 8 < f.h.toNat
        · rw [if_pos hh] at h; cases h; exact .raised (i := .scroll sel c delay msg) _ rfl
        · rw [if_neg hh] at h; cases h; exact .started rfl hd hf (by omega)
    · cases h; exact .raised (i := .scroll sel c delay msg) _ rfl

/-! ### Commands and the inputs to come -/

/-- `finish` on two answers that differ only in the inputs kept. -/
theorem finish_inputs {op : Op} {s t : State} {a b : Answer} (ins : List Input)
    (hb : b = a.map fun p => ({ p.1 with inputs := ins }, p.2)) (h : finish op s a = .next t) :
    finish op { s with inputs := ins } b = .next { t with inputs := ins } := by
  subst hb
  rcases a with st | ⟨u, ws⟩ <;> cases h <;> rfl

/-- The same after the life-cycle check. -/
theorem finish_needActive_inputs {op : Op} {s t : State} {k k' : Display → Answer} (ins : List Input)
    (hk : ∀ d, k' d = (k d).map fun p => ({ p.1 with inputs := ins }, p.2)) (h : finish op s (needActive s >>= k) = .next t) :
    finish op { s with inputs := ins } (needActive { s with inputs := ins } >>= k') = .next { t with inputs := ins } := by
  have hn : needActive { s with inputs := ins } = needActive s := rfl
  refine finish_inputs ins ?_ h
  rw [hn]
  cases needActive s with
  | ok d => exact hk d
  | error st => rfl

@[simp] theorem selectFont_inputs (s : State) (ins : List Input) (sel : FontSel) :
    selectFont { s with inputs := ins } sel = selectFont s sel := by cases sel <;> rfl

/-- No command looks at the inputs to come, and each keeps them. -/
theorem exec_inputs {i : Instr} {s t : State} (ins : List Input) (h : exec i s = .next t) :
    exec i { s with inputs := ins } = .next { t with inputs := ins } := by
  cases i with
  | pack888 | packRaw | unpack565 | unpack888 => cases h; rfl
  | init =>
    obtain ⟨life, _, _, _, alloc, _, _, _⟩ := s
    cases life <;> cases alloc <;> cases h <;> rfl
  | release =>
    obtain ⟨life, _, _, _, _, _, _, _⟩ := s
    cases life <;> cases h <;> rfl
  | getPix sel x y | getPixRaw sel x y =>
    refine finish_needActive_inputs ins (fun d => ?_) h
    cases bufGet (selectBuffer d sel) x y <;> rfl
  | getAllRaw sel => exact finish_needActive_inputs ins (fun _ => rfl) h
  | setPix x y r g b =>
    refine finish_needActive_inputs ins (fun d => ?_) h
    cases bufSet d.back x y (pack565 r g b) <;> rfl
  | setPixRaw x y r g b =>
    refine finish_needActive_inputs ins (fun d => ?_) h
    cases bufSet d.back x y (pack565raw r g b) <;> rfl
  | setAllRaw values =>
    refine finish_needActive_inputs ins (fun d => ?_) h
    cases bufWriteAll values <;> rfl
  | fill c => exact finish_needActive_inputs ins (fun _ => rfl) h
  | clear redraw => exact finish_needActive_inputs ins (fun _ => rfl) h
  | drawBitmap w v pixels =>
    refine finish_needActive_inputs ins (fun d => ?_) h
    cases bitmapBuffer w v pixels <;> rfl
  | setRot redraw o =>
    refine finish_needActive_inputs ins (fun d => ?_) h
    cases orientationOf o <;> rfl
  | present => exact finish_needActive_inputs ins (fun _ => rfl) h
  | glyphBits sel ch =>
    refine finish_inputs (s := s) ins ?_ h
    rw [selectFont_inputs]
    cases selectFont s sel with
    | error st => rfl
    | ok f => cases hg : lookUpGlyph f ch <;> simp [hg, Except.map]
  | loadFont w v glyphs =>
    refine finish_inputs (s := s) ins ?_ h
    split <;> rfl
  | drawLetter sel ch c =>
    refine finish_needActive_inputs ins (fun d => ?_) h
    rw [selectFont_inputs]
    cases selectFont s sel with
    | error st => rfl
    | ok f => cases hb : letterBuffer f ch c d.back <;> simp [hb, Except.map, setDisplay]
  | scroll sel c delay msg =>
    have hn : needActive { s with inputs := ins } = needActive s := rfl
    simp only [exec, execScroll, startScroll, hn, selectFont_inputs] at h ⊢
    cases hd : needActive s with
    | error st => rw [hd] at h; cases h; rfl
    | ok d =>
      rw [hd] at h
      cases hf : selectFont s sel with
      | error st => rw [hf] at h; cases h; rfl
      | ok f =>
        rw [hf] at h
        simp only [except_ok_bind] at h ⊢
        by_cases hh : 8 < f.h.toNat
        · rw [if_pos hh] at h ⊢; cases h; rfl
        · rw [if_neg hh] at h ⊢; cases h; rfl

end Sys2Proof.Machine
end

