-- ==== Sys2Proof/Laws/Glyph.lean ====
section
/-! SUPPORT. Glyph bits, the columns of a glyph and of a message, and the window, each said once. -/

namespace Sys2Proof.Machine

open Sys2Proof.Safety

/-- A glyph bit in the claims' arithmetic (44_glyph.md R133). -/
theorem glyphBit_eq_pixelLit (f : Font) (g : GlyphWord) (row col : Nat) : glyphBit f g row col = pixelLit f g row col := by
  simp only [glyphBit, pixelLit, BitVec.getLsbD, Nat.testBit_eq_decide_div_mod_eq]
  generalize g.toNat / _ % 2 = q
  by_cases h : q = 1 <;> simp [h]

/-- `SelectFont` answers the font the selector names. -/
theorem selectFont_of_selectedFont {s : State} {sel : FontSel} {f : Font} (h : selectedFont s sel = some f) :
    selectFont s sel = .ok f := by
  cases sel
  · simp only [selectedFont, Option.some.injEq] at h; subst h; rfl
  · simp only [selectedFont] at h; simp [selectFont, h]

theorem selectFont_of_none {s : State} {sel : FontSel} (h : selectedFont s sel = none) : selectFont s sel = .error .invalidFont := by
  cases sel
  · simp [selectedFont] at h
  · simp only [selectedFont] at h; simp [selectFont, h]

/-- A character has a glyph exactly when it is printable (44_glyph.md R131). -/
theorem glyphIndex_isSome (ch : Word) : (glyphIndex ch).isSome = printable ch := by
  unfold glyphIndex printable
  by_cases h : 0x20 ≤ ch.toNat ∧ ch.toNat ≤ 0x7E
  · simp [h]
  · rw [dif_neg h]; simp; omega

/-- Rows OR-ed into a column one after the other: row `l` is bit `7 - l`. -/
theorem foldl_or_getLsbD (b : Nat → Bool) {n l : Nat} (hn : n ≤ 8) (hl : l < 8) :
    ((List.range n).foldl (fun (v : Byte) l => v ||| (BitVec.ofBool (b l)).setWidth 8 <<< (7 - l)) 0).getLsbD (7 - l) =
      (decide (l < n) && b l) := by
  induction n with
  | zero => simp
  | succ n ih =>
    rw [List.range_succ, List.foldl_append]
    simp only [List.foldl_cons, List.foldl_nil, BitVec.getLsbD_or, ih (by omega), BitVec.getLsbD_shiftLeft, BitVec.getLsbD_setWidth]
    rcases Nat.lt_trichotomy l n with h | h | h
    · have h1 : l < n + 1 := by omega
      have h2 : ¬ (7 - l < 7 - n) := by omega
      have h3 : (BitVec.ofBool (b n)).getLsbD (7 - l - (7 - n)) = false := by apply BitVec.getLsbD_of_ge; omega
      simp [*]
    · subst h
      have h1 : 7 - l < 8 := by omega
      cases b l <;> simp [h1]
    · have h1 : ¬ l < n + 1 := by omega
      have h2 : 7 - l < 7 - n := by omega
      have h3 : ¬ l < n := by omega
      simp [*]

/-- A column's bits (44_glyph.md R142). -/
theorem glyphColumn_getLsbD (f : Font) (g : GlyphWord) (k : Nat) {l : Nat} (hh : f.h.toNat ≤ 8) (hl : l < 8) :
    (glyphColumn f g k).getLsbD (7 - l) = (decide (l < f.h.toNat) && pixelLit f g l k) := by
  rw [← glyphBit_eq_pixelLit]; exact foldl_or_getLsbD (fun l => glyphBit f g l k) hh hl

@[simp] theorem glyphColumns_length (f : Font) (g : GlyphWord) : (glyphColumns f g).length = f.w.toNat := by simp [glyphColumns]

theorem messageColumns_skip {f : Font} {first : Bool} {ch : Word} {rest : List Word} (h : printable ch = false) :
    messageColumns f first (ch :: rest) = messageColumns f first rest := by
  rw [← glyphIndex_isSome, Option.isSome_eq_false_iff, Option.isNone_iff_eq_none] at h
  simp [messageColumns, h]

theorem messageColumns_glyph {f : Font} {first : Bool} {ch : Word} {k : Fin 95} {rest : List Word} (h : glyphIndex ch = some k) :
    messageColumns f first (ch :: rest) =
      (if first then [] else [0]) ++ glyphColumns f f.glyphs[k] ++ messageColumns f false rest := by
  simp [messageColumns, h]

/-- After a first glyph, each printable character adds a blank column and its own. -/
theorem messageColumns_false_length (f : Font) (msg : List Word) :
    (messageColumns f false msg).length = (msg.filter printable).length * (f.w.toNat + 1) := by
  induction msg with
  | nil => simp [messageColumns]
  | cons ch rest ih =>
    cases h : glyphIndex ch with
    | none =>
      have hp : printable ch = false := by rw [← glyphIndex_isSome, h]; rfl
      rw [messageColumns_skip hp, List.filter_cons, hp]; exact ih
    | some k =>
      have hp : printable ch = true := by rw [← glyphIndex_isSome, h]; rfl
      rw [messageColumns_glyph h, List.filter_cons, hp]
      simp [ih]; ring

/-- At the start of a message the first glyph has no blank column before it. -/
theorem messageColumns_true_length (f : Font) (msg : List Word) :
    (messageColumns f true msg).length = (msg.filter printable).length * (f.w.toNat + 1) - 1 := by
  induction msg with
  | nil => simp [messageColumns]
  | cons ch rest ih =>
    cases h : glyphIndex ch with
    | none =>
      have hp : printable ch = false := by rw [← glyphIndex_isSome, h]; rfl
      rw [messageColumns_skip hp, List.filter_cons, hp]; exact ih
    | some k =>
      have hp : printable ch = true := by rw [← glyphIndex_isSome, h]; rfl
      rw [messageColumns_glyph h, List.filter_cons, hp]
      simp [messageColumns_false_length, Nat.add_mul]; omega

@[simp] theorem drawWindow_getElem (cols : List Byte) (pos : Nat) (c : Color16) (n : Nat) (h : n < 64) :
    (drawWindow cols pos c)[n] =
      if (cols.getD (pos + (colOf ⟨n, h⟩).val) 0).getLsbD (7 - (rowOf ⟨n, h⟩).val) then c else 0 := by simp [drawWindow]

@[simp] theorem drawGlyph_getElem (f : Font) (g : GlyphWord) (c : Color16) (back : Buffer) (n : Nat) (h : n < 64) :
    (drawGlyph f g c back)[n] =
      if (rowOf ⟨n, h⟩).val < f.h.toNat ∧ (colOf ⟨n, h⟩).val < f.w.toNat then
        if glyphBit f g (rowOf ⟨n, h⟩).val (colOf ⟨n, h⟩).val then c else 0
      else back[n] := by simp [drawGlyph]

/-- A frame or the end of a scroll: cancelled at the top, one more window, or the last one. -/
theorem scrollFrame_cases (d : Display) (r : ScrollRun) (s : State) :
    (r.cols.length < r.pos + 8 ∧ scrollFrame d r s = endScroll .ok d r.count s) ∨
    (r.pos + 8 ≤ r.cols.length ∧ s.cancel = true ∧ scrollFrame d r s = endScroll .cancelled d r.count s) ∨
    (r.pos + 9 ≤ r.cols.length ∧ s.cancel = false ∧ scrollFrame d r s = setDisplay s
      { doPresent { d with back := drawWindow r.cols r.pos r.color } with
        scroll := .running { r with pos := r.pos + 1, count := r.count + 1 } }) ∨
    (r.pos + 8 = r.cols.length ∧ s.cancel = false ∧ scrollFrame d r s =
      endScroll .ok (doPresent { d with back := drawWindow r.cols r.pos r.color }) (r.count + 1) s) := by
  unfold scrollFrame nextWindow hasWindow
  cases hc : s.cancel <;> rcases Nat.lt_trichotomy (r.pos + 8) r.cols.length with h | h | h
  · exact .inr (.inr (.inl ⟨by omega, rfl, by simp [show r.pos + 8 ≤ r.cols.length by omega, show r.pos + 1 + 8 ≤ r.cols.length by omega]⟩))
  · exact .inr (.inr (.inr ⟨h, rfl, by simp [show r.pos + 8 ≤ r.cols.length by omega, show ¬ r.pos + 1 + 8 ≤ r.cols.length by omega]⟩))
  · exact .inl ⟨h, by simp [show ¬ r.pos + 8 ≤ r.cols.length by omega]⟩
  · exact .inr (.inl ⟨by omega, rfl, by simp [show r.pos + 8 ≤ r.cols.length by omega]⟩)
  · exact .inr (.inl ⟨by omega, rfl, by simp [show r.pos + 8 ≤ r.cols.length by omega]⟩)
  · exact .inl ⟨h, by simp [show ¬ r.pos + 8 ≤ r.cols.length by omega]⟩

end Sys2Proof.Machine
end

