-- ==== Sys2Proof/Laws/PerInstr.lean ====
section
/-! SUPPORT. Statements for all instructions, one lemma per constructor. The family HeaderFraming: the header of a well-formed command
carries its `OPC`, zero reserved flags, its selector and exactly its number of payload words (30_encoding.md R51, R52). -/

namespace Sys2Proof.Laws.HeaderFraming

/-- The four fields of a well-formed command's header read back. -/
def Statement (i : Instr) : Prop :=
  i.wf = true → opcField i.header = i.op.opc ∧ reservedFlags i.header = 0 ∧ selectorBit i.header = i.selector ∧
    lenField i.header = i.payload.length

/-- The fields read back wherever the payload fits the `LEN` field. -/
theorem statement_of_length {i : Instr} (h : i.wf = true → i.payload.length < 65536) : Statement i := fun hw =>
  ⟨opcField_headerWord _ _ _ (h hw), reservedFlags_headerWord _ _ _ (h hw), selectorBit_headerWord _ _ _ (h hw),
    lenField_headerWord _ _ _ (h hw)⟩

theorem pack888 (r g b : Byte) : Statement (.pack888 r g b) :=
  statement_of_length fun _ => by simp [Instr.payload]

theorem packRaw (r5 g6 b5 : Byte) : Statement (.packRaw r5 g6 b5) :=
  statement_of_length fun _ => by simp [Instr.payload]

theorem unpack565 (c : Color16) : Statement (.unpack565 c) :=
  statement_of_length fun _ => by simp [Instr.payload]

theorem unpack888 (c : Color16) : Statement (.unpack888 c) :=
  statement_of_length fun _ => by simp [Instr.payload]

theorem init : Statement .init :=
  statement_of_length fun _ => by simp [Instr.payload]

theorem release : Statement .release :=
  statement_of_length fun _ => by simp [Instr.payload]

theorem getPix (sel : BufSel) (x y : Byte) : Statement (.getPix sel x y) :=
  statement_of_length fun _ => by simp [Instr.payload]

theorem getPixRaw (sel : BufSel) (x y : Byte) : Statement (.getPixRaw sel x y) :=
  statement_of_length fun _ => by simp [Instr.payload]

theorem getAllRaw (sel : BufSel) : Statement (.getAllRaw sel) :=
  statement_of_length fun _ => by simp [Instr.payload]

theorem setPix (x y r g b : Byte) : Statement (.setPix x y r g b) :=
  statement_of_length fun _ => by simp [Instr.payload]

theorem setPixRaw (x y r5 g6 b5 : Byte) : Statement (.setPixRaw x y r5 g6 b5) :=
  statement_of_length fun _ => by simp [Instr.payload]

theorem setAllRaw (values : List Color16) : Statement (.setAllRaw values) :=
  statement_of_length fun h => by
    simp only [Instr.wf, decide_eq_true_eq] at h
    simp only [Instr.payload, List.length_map]; omega

theorem fill (c : Color16) : Statement (.fill c) :=
  statement_of_length fun _ => by simp [Instr.payload]

theorem clear (redraw : Bool) : Statement (.clear redraw) :=
  statement_of_length fun _ => by simp [Instr.payload]

theorem drawBitmap (w h : Byte) (pixels : List Rgb) : Statement (.drawBitmap w h pixels) :=
  statement_of_length fun h' => by
    have hw := Nat.mul_le_mul (Nat.le_of_lt_succ w.isLt) (Nat.le_of_lt_succ h.isLt)
    simp only [Instr.wf, decide_eq_true_eq] at h'
    simp only [Instr.payload, List.length_cons, List.length_map]; omega

theorem setRot (redraw : Bool) (o : Byte) : Statement (.setRot redraw o) :=
  statement_of_length fun _ => by simp [Instr.payload]

theorem present : Statement .present :=
  statement_of_length fun _ => by simp [Instr.payload]

theorem glyphBits (sel : FontSel) (ch : Word) : Statement (.glyphBits sel ch) :=
  statement_of_length fun _ => by simp [Instr.payload]

theorem loadFont (w h : Byte) (glyphs : GlyphTable) : Statement (.loadFont w h glyphs) :=
  statement_of_length fun _ => by simp [Instr.payload]

theorem drawLetter (sel : FontSel) (ch : Word) (c : Color16) : Statement (.drawLetter sel ch c) :=
  statement_of_length fun _ => by simp [Instr.payload]

theorem scroll (sel : FontSel) (c : Color16) (delay : Word) (msg : List Word) : Statement (.scroll sel c delay msg) :=
  statement_of_length fun h => by
    simp only [Instr.wf, decide_eq_true_eq] at h
    simp only [Instr.payload, List.length_cons]; omega

end Sys2Proof.Laws.HeaderFraming
end

