-- ==== Sys2Proof/Laws/Step.lean ====
section
/-! SUPPORT. What one step is in each of the situations it can start from, and a run as its first step and the rest. -/

namespace Sys2Proof.Machine

/-- A pending reset event is all that happens in its step. -/
theorem step_of_reset {s : State} {ins : List Input} (h : s.inputs = .reset :: ins) :
    step s = .next (resetEvent { s with inputs := ins }) := by
  unfold step resetPending takeInput; rw [h]; rfl

/-- A pending drive is taken, and then the block makes the step it makes. -/
theorem step_of_drive {s : State} {c : Bool} {a : AllocAnswer} {ws : List Word} {ins : List Input}
    (h : s.inputs = .drive c a ws :: ins) :
    step s = advance { s with inputs := ins, cancel := c, alloc := a, cmd := s.cmd ++ ws } := by
  unfold step resetPending takeInput; rw [h]; rfl

/-- With no input left the block makes the step it makes from the state itself. -/
theorem step_of_nil {s : State} (h : s.inputs = []) : step s = advance s := by
  unfold step; rw [resetPending_of_nil h, takeInput_of_nil h]; rfl

/-- With no input left and a scroll in flight, a step is one frame. -/
theorem step_of_running {s : State} {d : Display} {r : ScrollRun} (hl : s.life = .active d) (hs : d.scroll = .running r)
    (hi : s.inputs = []) : step s = .next (scrollFrame d r s) := by
  rw [step_of_nil hi]; simp [advance, hl, hs]

/-- An idle block takes a command. -/
theorem advance_of_idle {s : State} (h : s.scroll = .idle) : advance s = takeCommand s := by
  unfold State.scroll at h; unfold advance
  split at h <;> simp_all

/-- With no input left and no scroll in flight, a step takes a command. -/
theorem step_of_idle {s : State} (hs : s.scroll = .idle) (hi : s.inputs = []) : step s = takeCommand s := by
  rw [step_of_nil hi]; exact advance_of_idle hs

/-- A machine's run is its first step and then the rest. -/
theorem run_succ_of_next (M : Host.Core) (k : Nat) {s t : M.State} (h : M.step s = .next t) : M.run (k + 1) s = M.run k t := by
  rw [Host.Core.run]; simp only [h]

/-- Presenting, as the Display it leaves. -/
theorem doPresent_eq (d : Display) : doPresent d = { d with front := rotApply d.rot d.back } := by
  rw [← doPresent_front]; rfl

end Sys2Proof.Machine
end

