-- ==== Sys2Proof/Tests/Slice0.lean ====
section
/-! SUPPORT. Checks of the model against the spec's own encodings and vectors (30_encoding.md, 95_test_vectors.md), ill-formed terms
refused, and a witness for the hypotheses of every statement that has some. -/

namespace Sys2Proof.Tests

open Sys2Proof Sys2Proof.Machine Sys2Proof.Safety

/-! ### Small states -/

/-- After reset, with a built-in font of zeros in the place of the open one, so that the kernel can compute. -/
def dark : State := { State.reset with dfontGlyphs := Vector.replicate 95 0 }

/-- `dark` after a successful `INIT`. -/
def ready : State := { dark with life := .active freshDisplay }

/-- `dark` after `INIT` and `RELEASE`. -/
def ended : State := { dark with life := .released }

/-- 95_test_vectors.md section 2.4's font T3: 3 by 3, `A` and `X` are 0x155, `B` is 0x1EF, the rest 0. -/
def t3 : Font :=
  { w := 3, h := 3, glyphs := ((Vector.replicate 95 0).set 33 0x155).set 34 0x1EF |>.set 56 0x155 }

/-- A font of the geometry `w` by `h` with glyphs of zeros. -/
def plainFont (w h : Byte) : Font := { w := w, h := h, glyphs := Vector.replicate 95 0 }

/-- `s` with a user font. -/
def withFont (s : State) (f : Font) : State := { s with ufont := some f }

/-- `ready` with a given `back`. -/
def withBack (c : Color16) : State := { dark with life := .active { freshDisplay with back := bufFill c } }

/-- The scroll of `"A"` in T3 just started. -/
def run0 : ScrollRun := { cols := List.replicate 19 0, pos := 0, color := 0xF800, delay := 0, count := 0 }

/-- A scroll in flight at its window `pos`. -/
def inFlight (pos : Nat) : State :=
  { dark with life := .active { freshDisplay with scroll := .running { run0 with pos := pos, count := pos } } }

/-- `s` with command words waiting. -/
def sent (s : State) (ws : List Word) : State := { s with cmd := ws }

/-- The response words of an outcome. -/
def answer : Out → Option (List Word)
  | .next t => some t.rsp
  | .fault _ => none
  | .refused _ => none

/-- Some cells of `back` after an outcome. -/
def backAt (cells : List Nat) : Out → Option (List (Option Color16))
  | .next t => t.display.map fun d => cells.map fun i => d.back[i]?
  | .fault _ => none
  | .refused _ => none

/-- Some cells of `front` after an outcome. -/
def frontAt (cells : List Nat) : Out → Option (List (Option Color16))
  | .next t => t.display.map fun d => cells.map fun i => d.front[i]?
  | .fault _ => none
  | .refused _ => none

/-! ### Ill-formed terms are refused by `wf` -/

theorem test_wf_setAllRaw : (Instr.setAllRaw (List.replicate 65536 0)).wf = false := by
  simp only [Instr.wf, List.length_replicate]; decide

theorem test_wf_drawBitmap : (Instr.drawBitmap 2 2 [⟨0, 0, 0⟩, ⟨0, 0, 0⟩, ⟨0, 0, 0⟩]).wf = false := by decide

theorem test_wf_scroll : (Instr.scroll .user 0 0 (List.replicate 65534 0)).wf = false := by
  simp only [Instr.wf, List.length_replicate]; decide

/-- Zero pixels for a 0 by 0 bitmap is well formed; only its shape is refused later (30_encoding.md R60). -/
theorem test_wf_empty_bitmap : (Instr.drawBitmap 0 0 []).wf = true := by decide

/-! ### Every constructor from a word written out of 30_encoding.md R51, R53, R56 -/

theorem test_decode_pack888 : decode 0x01000001 [0x00C86432] = .ok (.pack888 200 100 50) := by decide
theorem test_decode_packRaw : decode 0x02000001 [0x001F3F1F] = .ok (.packRaw 31 63 31) := by decide
theorem test_decode_unpack565 : decode 0x03000001 [0x0000CB26] = .ok (.unpack565 0xCB26) := by decide
theorem test_decode_unpack888 : decode 0x04000001 [0x0000CB26] = .ok (.unpack888 0xCB26) := by decide
theorem test_decode_init : decode 0x10000000 [] = .ok .init := by decide
theorem test_decode_release : decode 0x11000000 [] = .ok .release := by decide
theorem test_decode_getPix : decode 0x12010001 [0x00000203] = .ok (.getPix .back 3 2) := by decide
theorem test_decode_getPixRaw : decode 0x13000001 [0x00000203] = .ok (.getPixRaw .front 3 2) := by decide
theorem test_decode_getAllRaw : decode 0x14010000 [] = .ok (.getAllRaw .back) := by decide
theorem test_decode_setPix : decode 0x15000002 [0x00000203, 0x00C86432] = .ok (.setPix 3 2 200 100 50) := by decide
theorem test_decode_setPixRaw : decode 0x16000002 [0x00000001, 0x001F3F1F] = .ok (.setPixRaw 1 0 31 63 31) := by decide
theorem test_decode_setAllRaw : decode 0x17000003 [1, 2, 3] = .ok (.setAllRaw [1, 2, 3]) := by decide
theorem test_decode_fill : decode 0x18000001 [0x0000F800] = .ok (.fill 0xF800) := by decide
theorem test_decode_clear : decode 0x19010000 [] = .ok (.clear true) := by decide
theorem test_decode_drawBitmap :
    decode 0x1A000003 [0x00000201, 0x00FF8001, 0x00000002] = .ok (.drawBitmap 1 2 [⟨255, 128, 1⟩, ⟨0, 0, 2⟩]) := by decide
theorem test_decode_setRot : decode 0x20010001 [0x00000004] = .ok (.setRot true 4) := by decide
theorem test_decode_present : decode 0x21000000 [] = .ok .present := by decide
theorem test_decode_glyphBits : decode 0x30010001 [0x80000041] = .ok (.glyphBits .user 0x80000041) := by decide
theorem test_decode_loadFont :
    decode 0x310000BF (0x00000904 :: (List.replicate 95 [0x00000001#32, 0x80000002#32]).flatten) =
      .ok (.loadFont 4 9 (Vector.replicate 95 0x0000000180000002)) := by decide +kernel
theorem test_decode_drawLetter : decode 0x32010002 [0x58, 0x07E0] = .ok (.drawLetter .user 0x58 0x07E0) := by decide
theorem test_decode_scroll : decode 0x33000003 [0xF800, 100, 0x41] = .ok (.scroll .default 0xF800 100 [0x41]) := by decide

/-- `SHOW` and `FREE` are other spellings of the packets of `PRESENT` and `RELEASE` (30_encoding.md R63). -/
theorem test_aliases : encode .present = [0x21000000] ∧ encode .release = [0x11000000] := by decide

/-! ### Malformed packets are refused by name (95_test_vectors.md section 2.5) -/

theorem test_bad_opcode : decode 0x05000001 [0] = .error .unknownOpcode := by decide
theorem test_bad_reserved_flag : decode 0x10020000 [] = .error .reservedFlag := by decide
theorem test_bad_selector : decode 0x21010000 [] = .error .selectorNotAllowed := by decide
theorem test_bad_length : decode 0x01000002 [0, 0] = .error .wrongLength := by decide
theorem test_bad_bitmap : decode 0x1A000004 [0x00000202, 0, 0, 0] = .error .bitmapLength := by decide
theorem test_bad_scroll : decode 0x33000001 [0] = .error .scrollTooShort := by decide
theorem test_bad_rgb : decode 0x01000001 [0x01000000] = .error .reservedOperandBit := by decide
theorem test_bad_xy : decode 0x12010001 [0x00010000] = .error .reservedOperandBit := by decide
theorem test_bad_c16 : decode 0x17000001 [0x00010000] = .error .reservedOperandBit := by decide
theorem test_bad_rot : decode 0x20000001 [0x00000100] = .error .reservedOperandBit := by decide

/-- The opcode map names 21 commands and no two rows match one header (30_encoding.md R57). -/
theorem test_rows_apart :
    allOps.Pairwise fun a b => rowMask a &&& rowMask b &&& (rowMatch a ^^^ rowMatch b) ≠ 0 := by decide

/-- The host's numbering: header in the low 32 bits, payload words above, missing operand words zero. -/
theorem test_tableWord :
    decodeTableWord 64 0x00F8000018000001 = none ∧ decodeTableWord 64 0x0000F80018000001 = some (.fill 0xF800) ∧
    decodeTableWord 32 0x18000001 = some (.fill 0) ∧ decodeTableWord 32 0x33000002 = some (.scroll .default 0 0 []) := by
  decide

theorem test_withFetchWord :
    answer (step (State.reset.withFetchWord 64 0x00C8643201000001)) = some [0x01000001, 0x0000CB26] := by decide

/-! ### The colour codec (95_test_vectors.md section 2.1) -/

theorem test_pack888 : answer (exec (.pack888 200 100 50) dark) = some [0x01000001, 0x0000CB26] := by decide
theorem test_pack888_truncates : answer (exec (.pack888 7 3 7) dark) = some [0x01000001, 0] := by decide
theorem test_packRaw_bleeds : answer (exec (.packRaw 0 64 0) dark) = some [0x02000001, 0x0800] := by decide
theorem test_packRaw_drops : answer (exec (.packRaw 33 0 0) dark) = some [0x02000001, 0x0800] := by decide
theorem test_unpack565 : answer (exec (.unpack565 0x1234) dark) = some [0x03000001, 0x00021114] := by decide
theorem test_unpack888 : answer (exec (.unpack888 0xABCD) dark) = some [0x04000001, 0x00AC796A] := by decide
theorem test_replicate_table : expand888With .replicate 0xABCD = ⟨173, 121, 107⟩ := by decide

/-! ### The Display (95_test_vectors.md sections 2.2, 2.6, 3) -/

theorem test_init_twice : answer (exec .init ready) = some [0x10010000] := by decide
theorem test_init_fails : answer (exec .init { dark with alloc := .fail }) = some [0x10060000] := by decide
theorem test_release_again : answer (exec .release ended) = some [0x11000000] := by decide
theorem test_getPix : answer (exec (.getPix .back 5 5) (withBack 0xCB26)) = some [0x12000001, 0x00CD6531] := by decide
theorem test_getPix_front : answer (exec (.getPix .front 3 2) (withBack 0xCB26)) = some [0x12000001, 0] := by decide
theorem test_getPixRaw : answer (exec (.getPixRaw .back 3 2) (withBack 0xCB26)) = some [0x13000001, 0x00191906] := by decide
theorem test_getAllRaw : answer (exec (.getAllRaw .front) ended) = some [0x14080000] := by decide
theorem test_setPix : backAt [19, 26] (exec (.setPix 3 2 200 100 50) ready) = some [some 0xCB26, some 0] := by decide
theorem test_setPix_range : answer (exec (.setPix 8 0 255 255 255) ready) = some [0x15020000] := by decide
theorem test_setPixRaw : backAt [1, 2, 3] (exec (.setPixRaw 2 0 0 64 0) ready) = some [some 0, some 0x0800, some 0] := by decide
theorem test_setAllRaw_short : answer (exec (.setAllRaw (List.replicate 63 1)) ready) = some [0x17030000] := by decide
theorem test_setAllRaw : backAt [0, 63] (exec (.setAllRaw ((List.range 64).map (BitVec.ofNat 16))) ready) =
    some [some 0, some 63] := by decide
theorem test_fill : backAt [0, 63] (exec (.fill 0xF800) ready) = some [some 0xF800, some 0xF800] := by decide
theorem test_fill_keeps_front : frontAt [0, 63] (exec (.fill 0xF800) ready) = some [some 0, some 0] := by decide
theorem test_clear : backAt [0, 63] (exec (.clear false) (withBack 7)) = some [some 0, some 0] := by decide
theorem test_drawBitmap_shape : answer (exec (.drawBitmap 4 16 (List.replicate 64 ⟨0, 0, 0⟩)) ready) = some [0x1A040000] := by
  decide
theorem test_drawBitmap : backAt [0, 63] (exec (.drawBitmap 8 8 (List.replicate 64 ⟨224, 224, 255⟩)) ready) =
    some [some 0xE71F, some 0xE71F] := by decide

/-! ### Rotation (95_test_vectors.md section 2.3) -/

/-- `back[i] = i`. -/
def counting : Display := { freshDisplay with back := Vector.ofFn fun i => BitVec.ofNat 16 i.val }

theorem test_setRot_rot90 : frontAt [0, 7, 56, 63] (exec (.setRot true 1) { dark with life := .active counting }) =
    some [some 56, some 0, some 63, some 7] := by decide
theorem test_setRot_range : answer (exec (.setRot true 6) ready) = some [0x20020000] := by decide
theorem test_present_rot270 :
    frontAt [0, 7, 56, 63] (exec .present { dark with life := .active { counting with rot := .rot270 } }) =
      some [some 7, some 63, some 0, some 56] := by decide
theorem test_present_flipV :
    frontAt [0, 7, 56, 63] (exec .present { dark with life := .active { counting with rot := .flipV } }) =
      some [some 56, some 63, some 0, some 7] := by decide

/-! ### Glyphs and scrolling (95_test_vectors.md sections 2.4, 2.6, 3) -/

theorem test_glyphBits : answer (exec (.glyphBits .user 0x42) (withFont ended t3)) = some [0x30000002, 0, 0x000001EF] := by
  decide
theorem test_glyphBits_order : answer (exec (.glyphBits .user 0x7F) dark) = some [0x300A0000] := by decide
theorem test_loadFont : answer (exec (.loadFont 9 9 (Vector.replicate 95 0)) dark) = some [0x310A0000] := by decide
theorem test_drawLetter : backAt [0, 1, 2, 3, 8, 9, 16, 18, 24] (exec (.drawLetter .user 0x58 0x07E0) (withFont (withBack 0x1F) t3)) =
    some [some 0x7E0, some 0, some 0x7E0, some 0x1F, some 0, some 0x7E0, some 0x7E0, some 0x7E0, some 0x1F] := by decide
theorem test_drawLetter_order :
    answer (exec (.drawLetter .user 0x20 0) (withFont (withBack 0x1F) (plainFont 9 4))) = some [0x32000000] ∧
    answer (exec (.drawLetter .user 0x41 0) (withFont (withBack 0x1F) (plainFont 9 4))) = some [0x32020000] := by decide
theorem test_scroll_columns : buildColumns t3 [0x41, 0x0A, 0x42] =
    [0, 0, 0, 0, 0, 0, 0, 0, 0xA0, 0x40, 0xA0, 0, 0xE0, 0xA0, 0xE0, 0, 0, 0, 0, 0, 0, 0, 0] := by decide
theorem test_scroll_too_tall : answer (exec (.scroll .user 0 0 [0x41, 0x42]) (withFont ready (plainFont 4 9))) =
    some [0x33020000] := by decide

/-- Frame 8 of 95_test_vectors.md's P3: the window of columns 8 to 15, in row 0 and row 1. -/
theorem test_scroll_window : (drawWindow (buildColumns t3 [0x41, 0x42]) 8 0xFFFF).toList.take 16 =
    [0xFFFF, 0, 0xFFFF, 0, 0xFFFF, 0xFFFF, 0xFFFF, 0, 0, 0xFFFF, 0, 0, 0xFFFF, 0, 0xFFFF, 0] := by decide

/-- A reset while a scroll runs: no response, and the block is Uninitialized (70_reset_and_hazards.md R176). -/
theorem test_reset_event : answer (step { inFlight 3 with inputs := [.reset] }) = some [] := by decide

/-- A stream that ends inside a packet (70_reset_and_hazards.md R189). -/
theorem test_truncated : answer (step (sent ready [0x15000002, 0x00000203])) = none := by decide

/-! ### Witnesses: for every statement with hypotheses, states and operands that meet them, each clause at a boundary -/

theorem witness_DecodeEncodeIsIdentity :
    (Instr.drawBitmap 1 1 [⟨1, 2, 3⟩]).wf = true ∧ (Instr.scroll .user 1 2 [3]).wf = true ∧ (Instr.setAllRaw []).wf = true := by
  decide

theorem witness_EncodeDecodeIsIdentity : decode 0x33010002 [0x0000FFFF, 100] = .ok (.scroll .user 0xFFFF 100 []) := by decide

theorem witness_DecodedHeaderMatchesOneRow : decode 0x12010001 [0x00000203] = .ok (.getPix .back 3 2) := by decide

theorem witness_RefusedExactlyWhenMalformed :
    [0x000007E0#32].length = (0x18000001#32).toNat % 2 ^ 16 ∧ ([] : List Word).length = (0x1A000000#32).toNat % 2 ^ 16 := by
  decide

theorem witness_MalformedPacketAnswersBadCommand :
    let s := sent ended [0x05000001, 0, 0x10000000]
    s.inputs = [] ∧ s.scroll = .idle ∧ s.cmd = 0x05000001 :: ([0] ++ [0x10000000]) ∧
    [0#32].length = (0x05000001#32).toNat % 2 ^ 16 ∧ malformedPacket 0x05000001 [0] :=
  ⟨rfl, rfl, rfl, rfl, .inl (by decide)⟩

/-- One packet for each of the conditions (b) to (g). -/
theorem witness_malformed_each :
    malformedPacket 0x10020000 [] ∧ malformedPacket 0x10010000 [] ∧ malformedPacket 0x01000002 [0, 0] ∧
    malformedPacket 0x1A000000 [] ∧ malformedPacket 0x1A000004 [0x00000202, 0, 0, 0] ∧ malformedPacket 0x33000001 [0] ∧
    malformedPacket 0x32000002 [0x80000041, 0x00010000] :=
  ⟨.inr (.inl (by decide)), .inr (.inr (.inl (by decide))),
   .inr (.inr (.inr (.inl ⟨(0x01, false, some 1), by decide, rfl, 1, rfl, by decide⟩))),
   .inr (.inr (.inr (.inr (.inl ⟨by decide, .inl rfl⟩)))),
   .inr (.inr (.inr (.inr (.inl ⟨by decide, .inr ⟨_, _, rfl, by decide⟩⟩)))),
   .inr (.inr (.inr (.inr (.inr (.inl (by decide)))))),
   .inr (.inr (.inr (.inr (.inr (.inr ⟨1, _, rfl, by decide⟩)))))⟩

theorem witness_StepRunsTheDecodedCommand :
    (let s := sent ready [0x18000001, 7, 0x10000000]
     s.inputs = [] ∧ s.scroll = .idle ∧ s.cmd = 0x18000001 :: ([7] ++ [0x10000000]) ∧ decode 0x18000001 [7] = .ok (.fill 7)) ∧
    (let s := { sent ready [0x18000001] with inputs := [.drive true .fail [7, 0x10000000]] }
     s.inputs = .drive true .fail [7, 0x10000000] :: [] ∧ s.scroll = .idle ∧
     s.cmd ++ [7, 0x10000000] = 0x18000001 :: ([7] ++ [0x10000000]) ∧ decode 0x18000001 [7] = .ok (.fill 7)) :=
  ⟨⟨rfl, rfl, rfl, by decide⟩, rfl, rfl, rfl, by decide⟩

theorem witness_StepStopsOnlyInsideATruncatedPacket :
    (dark.inputs = [] ∧ dark.scroll = .idle ∧ dark.cmd = []) ∧
    (let s := sent dark [0x15000002, 0x00000203]
     s.inputs = [] ∧ s.scroll = .idle ∧ s.cmd = 0x15000002 :: [0x00000203] ∧
     [0x00000203#32].length < (0x15000002#32).toNat % 2 ^ 16 ∧ step s = .fault .truncatedPacket) ∧
    (let s := { sent dark [0x15000002] with inputs := [.drive false .ok [0x00000203], .reset] }
     s.inputs = .drive false .ok [0x00000203] :: [.reset] ∧ s.scroll = .idle ∧
     s.cmd ++ [0x00000203] = 0x15000002 :: [0x00000203] ∧ [0x00000203#32].length < (0x15000002#32).toNat % 2 ^ 16 ∧
     [Input.reset] ≠ []) ∧
    (let s := { sent dark [0x15000002] with inputs := [.drive false .ok []] }
     s.inputs = .drive false .ok [] :: [] ∧ s.scroll = .idle ∧ s.cmd ++ [] = 0x15000002 :: [] ∧
     ([] : List Word).length < (0x15000002#32).toNat % 2 ^ 16) :=
  ⟨⟨rfl, rfl, rfl⟩, ⟨rfl, rfl, rfl, by decide, rfl⟩, ⟨rfl, rfl, rfl, by decide, by decide⟩, rfl, rfl, rfl, by decide⟩

theorem witness_ResetEventRestoresTheBlock :
    let s := { inFlight 3 with inputs := [.reset], cmd := [0x15000002] }
    s.inputs = .reset :: [] ∧ s.scroll ≠ .idle ∧ takePacket s.cmd = .incomplete := by decide

theorem witness_ElementsAfterResetAndInit : ended.dstate ≠ .active ∧ ended.alloc = .ok := by decide

theorem witness_PixelBufferPrimitives :
    (7 < (8#8).toNat ∨ 7 < (0#8).toNat) ∧ ((7#8).toNat ≤ 7 ∧ (0#8).toNat ≤ 7) ∧ (List.replicate 63 (0 : Color16)).length ≠ 64 ∧
    (List.replicate 64 (0 : Color16)).length = 64 := by decide

theorem witness_FontAndGlyphFunctions :
    dark.ufont = none ∧ (withFont dark t3).ufont = some t3 ∧ (0x7E#32).toNat = 0x20 + (94 : Fin 95).val ∧
    2 < t3.h.toNat ∧ 2 < t3.w.toNat := ⟨rfl, rfl, by decide⟩

theorem witness_InitFollowsItsThreeCases :
    ready.dstate = .active ∧ ({ ended with alloc := .fail }.dstate ≠ .active ∧ { ended with alloc := .fail }.alloc = .fail) ∧
    (dark.dstate ≠ .active ∧ dark.alloc = .ok) := by decide

theorem witness_ReleaseGivesTheDisplayBack : ready.dstate = .active ∧ dark.dstate ≠ .active ∧ ended.dstate ≠ .active := by decide

theorem witness_UninitializedAndReleasedAreIndistinguishable : sameToHost (sent dark [0x10000000]) (sent ended [0x10000000]) :=
  ⟨rfl, .inr (by decide)⟩

theorem witness_NotActiveForThirteenCommands :
    (needsDisplay (Instr.present).op = true ∧ dark.dstate ≠ .active) ∧
    needsDisplay (Instr.release).op = false ∧ ∃ t, exec .release dark = .next t :=
  ⟨by decide, rfl, _, rfl⟩

theorem witness_GetPixReadsTheExpandedCell :
    dark.dstate ≠ .active ∧
    (ready.dstate = .active ∧ (7 < (8#8).toNat ∨ 7 < (0#8).toNat)) ∧ (ready.dstate = .active ∧ (7 < (0#8).toNat ∨ 7 < (8#8).toNat)) ∧
    (ready.life = .active freshDisplay ∧ (7#8).toNat ≤ 7 ∧ (7#8).toNat ≤ 7 ∧ (63 : Fin 64).val = 8 * (7#8).toNat + (7#8).toNat) :=
  ⟨by decide, by decide, by decide, rfl, by decide⟩

theorem witness_GetPixRawReadsTheComponents :
    ended.dstate ≠ .active ∧ (ready.dstate = .active ∧ (7 < (255#8).toNat ∨ 7 < (255#8).toNat)) ∧
    (ready.life = .active freshDisplay ∧ (0#8).toNat ≤ 7 ∧ (7#8).toNat ≤ 7 ∧ (56 : Fin 64).val = 8 * (7#8).toNat + (0#8).toNat) :=
  ⟨by decide, by decide, rfl, by decide⟩

theorem witness_GetAllRawReadsEveryCell : dark.dstate ≠ .active ∧ ready.life = .active freshDisplay := ⟨by decide, rfl⟩

theorem witness_SetPixWritesOneBackCell :
    dark.dstate ≠ .active ∧ (ready.dstate = .active ∧ (7 < (8#8).toNat ∨ 7 < (7#8).toNat)) ∧
    (ready.life = .active freshDisplay ∧ (7#8).toNat ≤ 7 ∧ (7#8).toNat ≤ 7) := ⟨by decide, by decide, rfl, by decide⟩

theorem witness_SetPixRawWritesOneBackCell :
    dark.dstate ≠ .active ∧ (ready.dstate = .active ∧ (7 < (7#8).toNat ∨ 7 < (8#8).toNat)) ∧
    (ready.life = .active freshDisplay ∧ (7#8).toNat ≤ 7 ∧ (0#8).toNat ≤ 7) := ⟨by decide, by decide, rfl, by decide⟩

theorem witness_SetAllRawWritesAllOrNothing :
    (List.replicate 63 (0 : Color16)).length ≤ 65535 ∧
    dark.dstate ≠ .active ∧ (ready.dstate = .active ∧ (List.replicate 63 (0 : Color16)).length ≠ 64) ∧
    (ready.dstate = .active ∧ (List.replicate 65 (0 : Color16)).length ≠ 64) ∧
    (ready.life = .active freshDisplay ∧ (List.replicate 64 (0 : Color16)).length = 64) :=
  ⟨by decide, by decide, by decide, by decide, rfl, rfl⟩

theorem witness_FillSetsEveryBackCell : ended.dstate ≠ .active ∧ ready.life = .active freshDisplay := ⟨by decide, rfl⟩

theorem witness_ClearZeroesAndOptionallyPresents : ended.dstate ≠ .active ∧ ready.life = .active freshDisplay := ⟨by decide, rfl⟩

theorem witness_DrawBitmapConvertsEveryPixel :
    ((Instr.drawBitmap 0 0 []).wf = true ∧ dark.dstate ≠ .active ∧ ready.dstate = .active ∧ ¬((0#8).toNat = 8 ∧ (0#8).toNat = 8)) ∧
    ((Instr.drawBitmap 8 8 (List.replicate 64 ⟨1, 2, 3⟩)).wf = true ∧ ready.life = .active freshDisplay ∧
      (8#8).toNat = 8 ∧ (List.replicate 64 (⟨1, 2, 3⟩ : Rgb))[(63 : Fin 64).val]? = some ⟨1, 2, 3⟩) :=
  ⟨by decide, by decide, rfl, by decide⟩

theorem witness_SetRotWritesAndOptionallyPresents :
    dark.dstate ≠ .active ∧ (ready.dstate = .active ∧ 5 < (6#8).toNat) ∧
    (ready.life = .active freshDisplay ∧ orientationCode .flipV = (5#8).toNat) := ⟨by decide, by decide, rfl, by decide⟩

theorem witness_PresentReordersBackIntoFront :
    dark.dstate ≠ .active ∧ ready.life = .active freshDisplay ∧ freshDisplay.rot = .identity := ⟨by decide, rfl, rfl⟩

theorem witness_RotApplyIsABijectiveReorder :
    destinationNat .rot90 (0 : Fin 8).val (7 : Fin 8).val = destinationNat .rot90 (0 : Fin 8).val (7 : Fin 8).val := rfl

theorem witness_GlyphBitsReadsTheStoredWord :
    selectedFont dark .user = none ∧
    (selectedFont (withFont dark t3) .user = some t3 ∧ printable 0x1F = false ∧ printable 0x7F = false ∧ printable 0x80000041 = false) ∧
    (selectedFont dark .default = some { w := 5, h := 8, glyphs := dark.dfontGlyphs } ∧
      (0x20#32).toNat = 0x20 + (0 : Fin 95).val ∧ (0x7E#32).toNat = 0x20 + (94 : Fin 95).val) := ⟨rfl, ⟨rfl, by decide⟩, rfl, by decide⟩

theorem witness_LoadFontReplacesTheUserFont :
    64 < (5#8).toNat * (13#8).toNat ∧ (64#8).toNat * (1#8).toNat ≤ 64 ∧ (0#8).toNat * (255#8).toNat ≤ 64 := by decide

theorem witness_DrawLetterDrawsOrClears :
    dark.dstate ≠ .active ∧ (ready.dstate = .active ∧ selectedFont ready .user = none) ∧
    (let s := withFont ready t3
     s.life = .active freshDisplay ∧ selectedFont s .user = some t3 ∧ (0x20#32).toNat = 0x20 ∧ printable 0x7F = false ∧
     (0x21#32).toNat ≠ 0x20 ∧ (0x21#32).toNat = 0x20 + (1 : Fin 95).val ∧ t3.w.toNat ≤ 8 ∧ t3.h.toNat ≤ 8) ∧
    (let s := withFont ready (plainFont 9 4)
     s.life = .active freshDisplay ∧ selectedFont s .user = some (plainFont 9 4) ∧ (0x7E#32).toNat ≠ 0x20 ∧
     printable 0x7E = true ∧ (8 < (plainFont 9 4).w.toNat ∨ 8 < (plainFont 9 4).h.toNat)) :=
  ⟨by decide, ⟨rfl, rfl⟩, ⟨rfl, rfl, by decide⟩, rfl, rfl, by decide⟩

/-- The size check where it meets `w * h = 0` and where a side is 8. -/
theorem witness_DrawLetterDrawsOrClears_sizes :
    (let s := withFont ready (plainFont 9 0)
     s.life = .active freshDisplay ∧ selectedFont s .user = some (plainFont 9 0) ∧ (0x21#32).toNat ≠ 0x20 ∧ printable 0x21 = true ∧
     (8 < (plainFont 9 0).w.toNat ∨ 8 < (plainFont 9 0).h.toNat) ∧ (plainFont 9 0).w.toNat * (plainFont 9 0).h.toNat = 0) ∧
    (let s := withFont ready (plainFont 0 8)
     s.life = .active freshDisplay ∧ selectedFont s .user = some (plainFont 0 8) ∧ (0x7E#32).toNat ≠ 0x20 ∧
     (0x7E#32).toNat = 0x20 + (94 : Fin 95).val ∧ (plainFont 0 8).w.toNat ≤ 8 ∧ (plainFont 0 8).h.toNat ≤ 8) ∧
    (let s := withFont ready (plainFont 8 8)
     s.life = .active freshDisplay ∧ selectedFont s .user = some (plainFont 8 8) ∧
     (plainFont 8 8).w.toNat ≤ 8 ∧ (plainFont 8 8).h.toNat ≤ 8) :=
  ⟨⟨rfl, rfl, by decide⟩, ⟨rfl, rfl, by decide⟩, rfl, rfl, by decide⟩

theorem witness_InvalidFontHasTwoCauses :
    dark.ufont = none ∧ (ready.ufont = none ∧ ready.dstate = .active) ∧ 64 < (13#8).toNat * (5#8).toNat := by decide

theorem witness_HighGlyphBitsAreNeverDrawn :
    let f : Font := { w := 1, h := 1, glyphs := Vector.replicate 95 1 }
    let f' : Font := { w := 1, h := 1, glyphs := Vector.replicate 95 3 }
    f.w = f'.w ∧ f.h = f'.h ∧ f ≠ f' ∧
    ∀ (k : Fin 95) (n : Nat), n < f.w.toNat * f.h.toNat → (f.glyphs[k]).getLsbD n = (f'.glyphs[k]).getLsbD n := by
  refine ⟨rfl, rfl, by decide +kernel, fun k n h => ?_⟩
  have hn : n = 0 := by simpa using h
  subst hn
  simp

theorem witness_PackRawOrsUnmaskedComponents : (31#8).toNat ≤ 31 ∧ (63#8).toNat ≤ 63 ∧ (31#8).toNat ≤ 31 ∧ 15 < 16 := by decide

theorem witness_ScrollStartsAfterItsChecks :
    ([] : List Word).length ≤ 65533 ∧ dark.dstate ≠ .active ∧ (ready.dstate = .active ∧ selectedFont ready .user = none) ∧
    (let s := withFont ready (plainFont 4 9)
     s.dstate = .active ∧ selectedFont s .user = some (plainFont 4 9) ∧ 8 < (plainFont 4 9).h.toNat) ∧
    (let s := withFont ready (plainFont 8 8)
     s.life = .active freshDisplay ∧ selectedFont s .user = some (plainFont 8 8) ∧ (plainFont 8 8).h.toNat ≤ 8) :=
  ⟨by decide, by decide, ⟨rfl, rfl⟩, ⟨rfl, rfl, by decide⟩, rfl, rfl, by decide⟩

theorem witness_BuildColumnsLaysOutTheMessage :
    t3.h.toNat ≤ 8 ∧ ([0x41#32, 0x0A, 0x42].filter printable)[1]? = some 0x42 ∧ (0x42#32).toNat = 0x20 + (34 : Fin 95).val ∧
    2 < t3.w.toNat ∧ 0 + 1 < ([0x41#32, 0x0A, 0x42].filter printable).length := by decide

/-- The two clauses at their boundary: 19 columns have windows 0 to 11. -/
theorem witness_ScrollFrameDrawsPresentsAndCounts :
    (let r := { run0 with pos := 10, count := 10 }
     (inFlight 10).life = .active { freshDisplay with scroll := .running r } ∧ (inFlight 10).inputs = [] ∧
     (inFlight 10).cancel = false ∧ r.pos + 8 ≤ r.cols.length ∧ r.pos + 9 ≤ r.cols.length) ∧
    (let r := { run0 with pos := 11, count := 11 }
     (inFlight 11).life = .active { freshDisplay with scroll := .running r } ∧ (inFlight 11).inputs = [] ∧
     (inFlight 11).cancel = false ∧ r.pos + 8 ≤ r.cols.length ∧ r.cols.length < r.pos + 9 ∧
     r.cols[r.pos + (7 : Fin 8).val]? = some 0) := ⟨⟨rfl, rfl, rfl, by decide⟩, rfl, rfl, rfl, by decide⟩

theorem witness_CancelEndsTheScrollAtAFrame :
    let s := { inFlight 11 with cancel := true }
    let r := { run0 with pos := 11, count := 11 }
    s.life = .active { freshDisplay with scroll := .running r } ∧ s.inputs = [] ∧ s.cancel = true ∧
    r.pos + 8 ≤ r.cols.length ∧ inv s = true := ⟨rfl, rfl, rfl, by decide⟩

theorem witness_CancelStaysAndActsOnFramesAlone :
    (let s := { withFont ready t3 with cancel := true }
     s.life = .active freshDisplay ∧ selectedFont s .user = some t3 ∧ t3.h.toNat ≤ 8 ∧ s.cancel = true ∧ s.inputs = []) ∧
    ∃ t, exec .present ready = .next t := ⟨⟨rfl, rfl, by decide⟩, _, rfl⟩

theorem witness_ScrollRunsEveryFrameToItsEnd :
    let s := withFont ready t3
    s.life = .active freshDisplay ∧ selectedFont s .user = some t3 ∧ t3.h.toNat ≤ 8 ∧ s.cancel = false ∧ s.inputs = [] :=
  ⟨rfl, rfl, by decide, rfl, rfl⟩

theorem witness_EveryCommandIsAllOrNothing : ∃ t, exec (.fill 7) ready = .next t := ⟨_, rfl⟩

theorem witness_OnlyTheListedCommandsWriteAnElement :
    (∃ t, exec (.fill 7) ready = .next t) ∧ writesElem (.fill 7) .front = false ∧ writesElem (.fill 7) .rot = false := ⟨⟨_, rfl⟩, rfl, rfl⟩

theorem witness_ReadsHaveNoSideEffect : readsOnly (Instr.getAllRaw .back).op = true ∧ ∃ t, exec (.getAllRaw .back) ready = .next t :=
  ⟨rfl, _, rfl⟩

theorem witness_ListedWritesAreIdempotent :
    idempotentWrite (Instr.setRot true 1).op = true ∧
    ∃ t, exec (.setRot true 1) ready = .next t ∧ ∃ u, exec (.setRot true 1) t = .next u := ⟨rfl, _, rfl, _, rfl⟩

theorem witness_ClearWithoutRedrawIsFillZero :
    (∃ t, exec (.clear false) ready = .next t) ∧ ∃ u, exec (.fill 0) ready = .next u := ⟨⟨_, rfl⟩, _, rfl⟩

theorem witness_NoPixelSurvivesRelease :
    ∃ t t', exec .release { dark with life := .active freshDisplay } = .next t ∧
      exec .release { dark with life := .active counting } = .next t' ∧ (∃ u, exec .init t = .next u) ∧ ∃ u', exec .init t' = .next u' :=
  ⟨_, _, rfl, rfl, ⟨_, rfl⟩, _, rfl⟩

theorem witness_DriverSeesFrontUnchangedOutsidePresents :
    driverMaySee .command ready ready freshDisplay.front ∧ ready.life = .active freshDisplay ∧
    writesElem (.fill 7) .front = false ∧ ∃ t, exec (.fill 7) ready = .next t ∧ driverMaySee .cell ready t freshDisplay.front :=
  ⟨.inl rfl, rfl, rfl, _, rfl, fun _ => .inl rfl⟩

theorem witness_EveryStepKeepsTheInvariant :
    inv (withFont (inFlight 3) t3) = true ∧ ∃ t, step (withFont (inFlight 3) t3) = .next t := ⟨by decide, _, rfl⟩

theorem witness_DrawWindowClearsAndDrawsEightColumns :
    0 + 8 ≤ (List.replicate 8 (0 : Byte)).length ∧ 11 + 8 ≤ run0.cols.length := by decide

theorem witness_PendingDriveIsTakenFirst :
    (let s := { sent ready [0x18000001] with inputs := [.drive false .ok [7], .reset] }
     s.inputs = .drive false .ok [7] :: [.reset] ∧
     ∃ t, step { s with inputs := [], cancel := false, alloc := .ok, cmd := s.cmd ++ [7] } = .next t) ∧
    (let s := { sent ready [0x18000001] with inputs := [.drive false .ok [], .reset] }
     s.inputs = .drive false .ok [] :: [.reset] ∧
     step { s with inputs := [], cancel := false, alloc := .ok, cmd := s.cmd ++ [] } = .fault .truncatedPacket) ∧
    (let s := { inFlight 11 with inputs := [.drive true .ok []] }
     let r := { run0 with pos := 11, count := 11 }
     s.inputs = .drive true .ok [] :: [] ∧ s.life = .active { freshDisplay with scroll := .running r } ∧
     r.pos + 8 ≤ r.cols.length) ∧
    (let s := { sent ended [0x05000001] with inputs := [.drive true .fail [0]] }
     s.inputs = .drive true .fail [0] :: [] ∧ s.scroll = .idle ∧ s.cmd ++ [0] = 0x05000001 :: ([0] ++ []) ∧
     [0#32].length = (0x05000001#32).toNat % 2 ^ 16 ∧ malformedPacket 0x05000001 [0]) :=
  ⟨⟨rfl, _, rfl⟩, ⟨rfl, rfl⟩, ⟨rfl, rfl, by decide⟩, rfl, rfl, rfl, rfl, .inl (by decide)⟩

/-- A level of `cancel` that arrives in a frame's own step ends the scroll there (44_glyph.md R145). -/
theorem test_cancel_arrives_in_its_frame :
    answer (step { inFlight 9 with inputs := [.drive true .ok []] }) = some [0x330B0001, 9] := by decide

end Sys2Proof.Tests
end

section
/-! PROOFS. The table of 10_state.md R23: the reset column by the definition of `State.reset`, the `INIT` column through what a
successful `INIT` leaves. -/

namespace Sys2Proof.Machine

/-- Outside Active and with `ALLOC = ok`, `INIT` answers `OK` and installs the fresh Display (43_display.md R113). -/
theorem exec_init_of_alloc_ok {s : State} (hs : s.dstate ≠ .active) (ha : s.alloc = .ok) :
    exec .init s = .next (respond Op.init.opc .ok [] (setDisplay s freshDisplay)) := by
  cases hl : s.life with
  | active d => exact absurd (dstate_eq_active_iff.2 ⟨d, hl⟩) hs
  | uninitialized => simp only [exec, execInit, hl, ha, finish_ok]
  | released => simp only [exec, execInit, hl, ha, finish_ok]

/-- Settles O10: after reset by the definition of `State.reset`; after `INIT` because the next state is the old one with the fresh
Display in it and a response, so every other element is kept. -/
theorem elementsAfterResetAndInit : Obligations.ElementsAfterResetAndInit := by
  refine ⟨⟨rfl, rfl, rfl, rfl, rfl⟩, fun s hs ha => ?_⟩
  have active : (respond Op.init.opc .ok [] (setDisplay s freshDisplay)).life = .active freshDisplay := rfl
  have zero (i : Fin 64) : freshDisplay.back[i] = 0 ∧ freshDisplay.front[i] = 0 :=
    ⟨bufFill_getElem 0 i i.isLt, bufFill_getElem 0 i i.isLt⟩
  exact ⟨_, freshDisplay, exec_init_of_alloc_ok hs ha, dstate_eq_active_iff.2 ⟨_, active⟩, display_of_active active, zero,
    rfl, rfl, rfl, scroll_of_active active⟩

end Sys2Proof.Machine
end

section
/-! PROOFS. A malformed packet is refused and answered. What `decode` accepts is the packet of a well-formed command under a header that
passed its checks, and such a packet meets none of the conditions (a) to (g) of 30_encoding.md R58. -/

namespace Sys2Proof

open Sys2Proof.Safety

/-! ### What the decoder accepts -/

/-- A header that passes the checks (a) to (d) of 30_encoding.md R58. -/
theorem of_decodeHeader_eq_ok {h : Word} {op : Op} (hd : decodeHeader h = .ok op) :
    opcField h = op.opc ∧ reservedFlags h = 0 ∧ (selectorBit h = true → op.hasSelector = true) ∧
      ∀ n, op.fixedLen = some n → lenField h = n := by
  unfold decodeHeader at hd
  split at hd
  case h_1 => cases hd
  case h_2 op' hop =>
    split_ifs at hd with hflags hsel
    have hselector : selectorBit h = true → op'.hasSelector = true := by simpa using hsel
    split at hd
    · rename_i n hn
      split_ifs at hd with hlen
      cases hd
      exact ⟨(opOfOpc_eq_some.1 hop).symm, not_not.1 hflags, hselector, fun m hm => hlen.trans (Option.some.inj (hn.symm.trans hm))⟩
    · rename_i hn
      cases hd
      exact ⟨(opOfOpc_eq_some.1 hop).symm, not_not.1 hflags, hselector, fun m hm => by cases hn.symm.trans hm⟩

/-- A payload of the row's fixed length, where it has one, decodes only as the payload of a well-formed command of that row. -/
theorem of_decodePayload_eq_ok {op : Op} {sel : Bool} {p : List Word} {i : Instr} (hlen : p.length < 65536)
    (hfixed : ∀ n, op.fixedLen = some n → p.length = n) (hd : decodePayload op sel p = .ok i) :
    i.op = op ∧ i.payload = p ∧ i.wf = true := by
  cases op <;> simp only [decodePayload, payload0_eq_ok_iff, payload1_eq_ok_iff, payload2_eq_ok_iff, except_bind_eq_ok,
    readRgb_eq_ok_iff, readC16_eq_ok_iff, readPair_eq_ok_iff, readRot_eq_ok_iff,
    readAll_eq_ok_iff fun _ _ => readC16_eq_ok_iff] at hd
  case init | release | getAllRaw | clear | present =>
    obtain ⟨rfl, rfl⟩ := hd
    exact ⟨rfl, rfl, rfl⟩
  case pack888 | packRaw | unpack565 | unpack888 | getPix | getPixRaw | fill | setRot =>
    obtain ⟨w, rfl, c, rfl, hd⟩ := hd
    cases hd
    exact ⟨rfl, rfl, rfl⟩
  case glyphBits =>
    obtain ⟨ch, rfl, hd⟩ := hd
    cases hd
    exact ⟨rfl, rfl, rfl⟩
  case setPix | setPixRaw =>
    obtain ⟨w, v, rfl, xy, rfl, c, rfl, hd⟩ := hd
    cases hd
    exact ⟨rfl, rfl, rfl⟩
  case drawLetter =>
    obtain ⟨ch, w, rfl, c, rfl, hd⟩ := hd
    cases hd
    exact ⟨rfl, rfl, rfl⟩
  case setAllRaw =>
    obtain ⟨cs, rfl, hd⟩ := hd
    cases hd
    rw [List.length_map] at hlen
    exact ⟨rfl, rfl, decide_eq_true (by omega)⟩
  case drawBitmap =>
    cases p with
    | nil => cases hd
    | cons dim ws =>
      simp only [bitmapPayload, except_bind_eq_ok, readPair_eq_ok_iff, readAll_eq_ok_iff fun _ _ => readRgb_eq_ok_iff] at hd
      obtain ⟨d, rfl, pixels, rfl, hd⟩ := hd
      split_ifs at hd with hsize
      cases hd
      rw [List.length_map] at hsize
      exact ⟨rfl, rfl, decide_eq_true hsize⟩
  case loadFont =>
    cases p with
    | nil => cases hd
    | cons dim ws =>
      have hws : ws.length = 2 * 95 := Nat.succ.inj (hfixed 191 rfl)
      simp only [fontPayload, except_bind_eq_ok, readPair_eq_ok_iff] at hd
      obtain ⟨d, rfl, hd⟩ := hd
      split at hd
      · rename_i glyphs hglyphs
        cases hd
        refine ⟨rfl, congrArg (pairWord d.1 d.2 :: ·) ?_, rfl⟩
        rw [glyphTable_eq_some_iff.1 hglyphs, glyphWords_readGlyphs hws]
      · cases hd
  case scroll =>
    unfold scrollPayload at hd
    split at hd
    · rename_i w delay msg
      simp only [except_bind_eq_ok, readC16_eq_ok_iff] at hd
      obtain ⟨c, rfl, hd⟩ := hd
      cases hd
      simp only [List.length_cons] at hlen
      exact ⟨rfl, rfl, decide_eq_true (by omega)⟩
    · cases hd

/-- What decodes is the packet of a well-formed command, under a header that passed its checks. -/
theorem of_decode_eq_ok {h : Word} {p : List Word} {i : Instr} (hd : decode h p = .ok i) :
    decodeHeader h = .ok i.op ∧ p.length = lenField h ∧ i.payload = p ∧ i.wf = true := by
  obtain ⟨op, hheader, hd⟩ := except_bind_eq_ok.1 hd
  split_ifs at hd with hlen
  obtain ⟨-, -, -, hfixed⟩ := of_decodeHeader_eq_ok hheader
  obtain ⟨rfl, hp, hwf⟩ := of_decodePayload_eq_ok (hlen ▸ lenField_lt h) (fun n hn => hlen.trans (hfixed n hn)) hd
  exact ⟨hheader, hlen, hp, hwf⟩

/-! ### Reserved bits of payload words (30_encoding.md R53) -/

/-- Word `k` of a list has no bit at `b k` or above. -/
def WordsBelow (b : Nat → Nat) (ws : List Word) : Prop := ∀ k w, ws[k]? = some w → w.toNat < 2 ^ b k

@[simp] theorem wordsBelow_nil (b : Nat → Nat) : WordsBelow b [] := fun _ _ hw => by cases hw

@[simp] theorem wordsBelow_cons {b : Nat → Nat} {w : Word} {ws : List Word} :
    WordsBelow b (w :: ws) ↔ w.toNat < 2 ^ b 0 ∧ WordsBelow (fun k => b (k + 1)) ws :=
  ⟨fun hb => ⟨hb 0 w rfl, fun k => hb (k + 1)⟩, fun ⟨hw, hws⟩ k v hv => by
    cases k with
    | zero => cases hv; exact hw
    | succ k => exact hws k v hv⟩

/-- All words of a list within one bound. -/
theorem wordsBelow_const {n : Nat} {ws : List Word} (hws : ∀ w ∈ ws, w.toNat < 2 ^ n) : WordsBelow (fun _ => n) ws :=
  fun _ _ hw => hws _ (List.mem_of_getElem? hw)

theorem rgbWord_lt (c : Rgb) : (rgbWord c).toNat < 2 ^ 24 := by
  have := c.r.isLt
  have := c.g.isLt
  have := c.b.isLt
  rw [rgbWord_toNat]; omega

theorem c16Word_lt (c : Color16) : (c16Word c).toNat < 2 ^ 16 := c16Word_toNat c ▸ c.isLt

theorem pairWord_lt (lo hi : Byte) : (pairWord lo hi).toNat < 2 ^ 16 := by
  have := lo.isLt
  have := hi.isLt
  rw [pairWord_toNat]; omega

theorem rotWord_lt (o : Byte) : (rotWord o).toNat < 2 ^ 8 := rotWord_toNat o ▸ o.isLt

/-- A command's payload keeps within the bits its row uses. -/
theorem payload_wordsBelow (i : Instr) : WordsBelow (usedBits i.op.opc.toNat) i.payload := by
  cases i with
  | init | release | getAllRaw | clear | present => exact wordsBelow_nil _
  | pack888 | packRaw => exact wordsBelow_cons.2 ⟨rgbWord_lt _, wordsBelow_nil _⟩
  | unpack565 | unpack888 | fill => exact wordsBelow_cons.2 ⟨c16Word_lt _, wordsBelow_nil _⟩
  | getPix | getPixRaw => exact wordsBelow_cons.2 ⟨pairWord_lt _ _, wordsBelow_nil _⟩
  | setPix | setPixRaw => exact wordsBelow_cons.2 ⟨pairWord_lt _ _, wordsBelow_cons.2 ⟨rgbWord_lt _, wordsBelow_nil _⟩⟩
  | setRot _ o => exact wordsBelow_cons.2 ⟨rotWord_lt o, wordsBelow_nil _⟩
  | glyphBits _ ch => exact wordsBelow_cons.2 ⟨ch.isLt, wordsBelow_nil _⟩
  | drawLetter _ ch c => exact wordsBelow_cons.2 ⟨ch.isLt, wordsBelow_cons.2 ⟨c16Word_lt c, wordsBelow_nil _⟩⟩
  | setAllRaw values => exact wordsBelow_const (List.forall_mem_map.2 fun c _ => c16Word_lt c)
  | drawBitmap w h pixels =>
    exact wordsBelow_cons.2 ⟨pairWord_lt w h, wordsBelow_const (List.forall_mem_map.2 fun c _ => rgbWord_lt c)⟩
  | loadFont w h glyphs => exact wordsBelow_cons.2 ⟨pairWord_lt w h, wordsBelow_const fun v _ => v.isLt⟩
  | scroll _ c delay msg =>
    exact wordsBelow_cons.2 ⟨c16Word_lt c, wordsBelow_cons.2 ⟨delay.isLt, wordsBelow_const fun v _ => v.isLt⟩⟩

/-! ### The opcode rows -/

/-- The row of 30_encoding.md R56 of one command. -/
def opcodeRow (op : Op) : Nat × Bool × Option Nat := (op.opc.toNat, op.hasSelector, op.fixedLen)

theorem opcodeRow_mem (op : Op) : opcodeRow op ∈ opcodeRows := by cases op <;> decide

/-- `OPC` as a number names one command. -/
theorem op_eq_of_opc {op op' : Op} (hopc : op.opc.toNat = op'.opc.toNat) : op = op' := by
  have hfind : opOfOpc op.opc = some op' := opOfOpc_eq_some.2 (BitVec.eq_of_toNat_eq hopc).symm
  exact Option.some.inj ((opOfOpc_opc op).symm.trans hfind)

/-- An opcode has one row. -/
theorem eq_opcodeRow {row : Nat × Bool × Option Nat} {op : Op} (hrow : row ∈ opcodeRows) (hopc : row.1 = op.opc.toNat) :
    row = opcodeRow op := by
  have hrows : opcodeRows = allOps.map opcodeRow := rfl
  rw [hrows] at hrow
  obtain ⟨op', -, rfl⟩ := List.mem_map.1 hrow
  exact congrArg opcodeRow (op_eq_of_opc hopc)

/-! ### No packet that decodes is malformed -/

/-- A well-formed `DRAWBITMAP` brings the pixels its `W_DIM` word asks for (30_encoding.md R58e). -/
theorem drawBitmap_payload {i : Instr} (hop : i.op = .drawBitmap) (hwf : i.wf = true) :
    ∃ dim ws, i.payload = dim :: ws ∧ ws.length = dim.toNat % 256 * (dim.toNat / 256 % 256) := by
  cases i <;> cases hop
  case drawBitmap w h pixels =>
  refine ⟨_, _, rfl, ?_⟩
  have hw := w.isLt
  have hlow : (h.toNat * 256 + w.toNat) % 256 = w.toNat := by omega
  have hhigh : (h.toNat * 256 + w.toNat) / 256 % 256 = h.toNat := by omega
  rw [List.length_map, pairWord_toNat, hlow, hhigh]
  exact of_decide_eq_true hwf

/-- A `SCROLL` has its colour and its delay (30_encoding.md R58f). -/
theorem scroll_payload_length {i : Instr} (hop : i.op = .scroll) : 2 ≤ i.payload.length := by
  cases i <;> cases hop
  exact Nat.le_add_left _ _

/-- Each of the conditions (a) to (g) contradicts a check the decoder made. -/
theorem not_malformedPacket_of_decode {h : Word} {p : List Word} {i : Instr} (hd : decode h p = .ok i) :
    ¬ malformedPacket h p := by
  obtain ⟨hheader, hlen, rfl, hwf⟩ := of_decode_eq_ok hd
  obtain ⟨hopc, hflags, hsel, hfixed⟩ := of_decodeHeader_eq_ok hheader
  have hopcNat : h.toNat / 2 ^ 24 = i.op.opc.toNat := by rw [← opcField_toNat, hopc]
  have hflagsNat : h.toNat / 2 ^ 17 % 2 ^ 7 = 0 := by rw [← reservedFlags_toNat, hflags]; rfl
  unfold malformedPacket
  rw [hopcNat, hflagsNat, ← lenField_eq]
  rintro (hnoRow | hne | ⟨hbit, row, hrow, hrowOpc, hnoSel⟩ | ⟨row, hrow, hrowOpc, n, hn, hne⟩ | ⟨hbitmap, hsize⟩ |
    ⟨hscroll, hshort⟩ | ⟨k, w, hw, hbig⟩)
  · exact hnoRow _ (opcodeRow_mem i.op) rfl
  · exact hne rfl
  · obtain rfl := eq_opcodeRow hrow hrowOpc
    have hyes := hsel (by rw [selectorBit_eq, hbit]; rfl)
    exact Bool.noConfusion (hyes.symm.trans hnoSel)
  · obtain rfl := eq_opcodeRow hrow hrowOpc
    exact hne (hfixed n hn).symm
  · obtain ⟨dim, ws, hp, hws⟩ := drawBitmap_payload (op_eq_of_opc (op' := .drawBitmap) hbitmap) hwf
    rw [hp, List.length_cons] at hlen
    rcases hsize with hzero | ⟨dim', rest, hp', hne⟩
    · omega
    · cases hp.symm.trans hp'
      omega
  · have := scroll_payload_length (op_eq_of_opc (op' := .scroll) hscroll)
    omega
  · exact absurd (payload_wordsBelow i k w hw) (Nat.not_lt.2 hbig)

/-- A malformed packet is refused (30_encoding.md R58). -/
theorem decode_of_malformedPacket {h : Word} {p : List Word} (hm : malformedPacket h p) : ∃ e, decode h p = .error e := by
  cases hd : decode h p with
  | ok i => exact absurd hm (not_malformedPacket_of_decode hd)
  | error e => exact ⟨e, rfl⟩

end Sys2Proof

namespace Sys2Proof.Machine

open Sys2Proof.Safety

/-! ### The answer to a malformed packet -/

/-- `BadCommand` as one emitted word, its `OPC` the header's (60_exceptions.md R156). -/
theorem badCommand_eq (h : Word) (s : State) :
    badCommand h s = { s with rsp := s.rsp ++ [headerNat (h.toNat / 2 ^ 24) 9 0] } := by
  have hword : responseHeader (opcField h) .badCommand 0 = headerNat (h.toNat / 2 ^ 24) 9 0 := by
    apply BitVec.eq_of_toNat_eq
    have hh := h.isLt
    have hcode : (statusCode .badCommand).toNat = 9 := rfl
    rw [responseHeader_toNat _ _ _ (by decide), headerNat, BitVec.toNat_ofNat, opcField_toNat, hcode,
      Nat.mod_eq_of_lt (by omega)]
  rw [← hword]
  rfl

/-- An idle block takes a packet that does not decode whole off the stream and answers `BadCommand`. -/
theorem takeCommand_of_error {s : State} {h : Word} {p rest : List Word} {e : Malformed} (hcmd : s.cmd = h :: (p ++ rest))
    (hlen : p.length = lenField h) (hd : decode h p = .error e) :
    takeCommand s = .next (badCommand h { s with cmd := rest }) := by
  simp only [takeCommand, hcmd, takePacket_of_length hlen, runPacket, hd]

/-- Settles O6: a malformed packet does not decode, since each condition contradicts a check the decoder makes; framed, it is answered
with `BadCommand` in the state with exactly its words taken. -/
theorem malformedPacketAnswersBadCommand : Obligations.MalformedPacketAnswersBadCommand := by
  intro s h p rest hinputs hidle hcmd hlen hmalformed
  obtain ⟨e, hd⟩ := decode_of_malformedPacket hmalformed
  rw [step_of_idle hidle hinputs, takeCommand_of_error hcmd (hlen.trans (lenField_eq h).symm) hd, badCommand_eq]

end Sys2Proof.Machine
end

section
/-! PROOFS. The colour converter (40_colorcodec.md): its functions as the spec's arithmetic, then its four commands. Each takes one
payload word and only answers one result word, so they share the lemma on the encoding and the lemma on the frame. -/

namespace Sys2Proof.Machine

open Sys2Proof.Safety

/-! ### The converter's functions as arithmetic -/

/-- The components of a colour fit their 5, 6 and 5 bits (40_colorcodec.md R82). -/
theorem unpack565_le (c : Color16) :
    (unpack565 c).r.toNat ≤ 31 ∧ (unpack565 c).g.toNat ≤ 63 ∧ (unpack565 c).b.toNat ≤ 31 := by
  obtain ⟨hr, hg, hb⟩ := unpack565_toNat c
  have := c.isLt
  omega

/-- A component that fits its `width` bits expands to a byte, so the formula of 40_colorcodec.md R83 is not cut. -/
theorem expandChannel_formula_toNat {width : Nat} {v : Byte} (hv : v.toNat ≤ 2 ^ width - 1) :
    (expandChannel .formula width v).toNat = v.toNat * 255 / (2 ^ width - 1) := by
  have hle : v.toNat * 255 / (2 ^ width - 1) ≤ 255 := Nat.div_le_of_le_mul (Nat.mul_le_mul_right 255 hv)
  exact (BitVec.toNat_ofNat _ 8).trans (Nat.mod_eq_of_lt (Nat.lt_succ_of_le hle))

/-- The expanded components as numbers (40_colorcodec.md R83). -/
theorem expand888_toNat (c : Color16) :
    (expand888 c).r.toNat = (unpack565 c).r.toNat * 255 / 31 ∧ (expand888 c).g.toNat = (unpack565 c).g.toNat * 255 / 63 ∧
    (expand888 c).b.toNat = (unpack565 c).b.toNat * 255 / 31 := by
  obtain ⟨hr, hg, hb⟩ := unpack565_le c
  exact ⟨expandChannel_formula_toNat (width := 5) hr, expandChannel_formula_toNat (width := 6) hg,
    expandChannel_formula_toNat (width := 5) hb⟩

/-- Settles O11: each function by its own lemma, the expansion because no component exceeds its divisor. -/
theorem converterFunctionsFollowTheFormulas : Obligations.ConverterFunctionsFollowTheFormulas := by
  refine ⟨pack565_toNat, fun c => ?_, expand888_toNat⟩
  obtain ⟨hr, hg, hb⟩ := unpack565_toNat c
  exact ⟨hr, hg, hb, unpack565_le c⟩

/-- With every component in range no bit bleeds, and the unmasked OR is the layout of 40_colorcodec.md R80: each OR joins
bits that do not overlap. -/
theorem pack565raw_toNat {r5 g6 b5 : Byte} (hr : r5.toNat ≤ 31) (hg : g6.toNat ≤ 63) (hb : b5.toNat ≤ 31) :
    (pack565raw r5 g6 b5).toNat = r5.toNat * 2048 + g6.toNat * 32 + b5.toNat := by
  have hred : r5.toNat <<< 11 ||| g6.toNat <<< 5 = (r5.toNat * 64 + g6.toNat) <<< 5 := by
    rw [← Nat.shiftLeft_add_eq_or_of_lt (by omega)]; omega
  have hall : r5.toNat <<< 11 ||| g6.toNat <<< 5 ||| b5.toNat = r5.toNat * 2048 + g6.toNat * 32 + b5.toNat := by
    rw [hred, ← Nat.shiftLeft_add_eq_or_of_lt (by omega)]; omega
  have hr32 : r5.toNat <<< 11 % 2 ^ 32 = r5.toNat <<< 11 := by omega
  have hg32 : g6.toNat <<< 5 % 2 ^ 32 = g6.toNat <<< 5 := by omega
  simp only [pack565raw, BitVec.toNat_setWidth, BitVec.toNat_or, BitVec.toNat_shiftLeft,
    BitVec.toNat_mod_cancel_of_lt (show 8 < 32 by decide), hr32, hg32, hall]
  omega

/-! ### The result words -/

/-- `zext_32` keeps the bits of a colour. -/
theorem c16Word_getLsbD (c : Color16) {k : Nat} (hk : k < 16) : (c16Word c).getLsbD k = c.getLsbD k := by
  rw [c16Word, BitVec.getLsbD_append, if_pos hk]

/-- The word `{0x00, r5, g6, b5}` of a colour (40_colorcodec.md R86). -/
theorem rgbWord_unpack565 (c : Color16) : rgbWord (unpack565 c) = BitVec.ofNat 32 (componentsNat c) := by
  obtain ⟨hr, hg, hb⟩ := unpack565_toNat c
  rw [rgbWord_eq, rgbNat, hr, hg, hb, componentsNat]; rfl

/-- The word `{0x00, r8, g8, b8}` of a colour (40_colorcodec.md R87). -/
theorem rgbWord_expand888 (c : Color16) : rgbWord (expand888 c) = BitVec.ofNat 32 (expandedNat c) := by
  obtain ⟨hr5, hg6, hb5⟩ := unpack565_toNat c
  obtain ⟨hr, hg, hb⟩ := expand888_toNat c
  rw [rgbWord_eq, rgbNat, hr, hg, hb, hr5, hg6, hb5, expandedNat]; rfl

/-! ### Commands of one payload word and one result word -/

/-- The encoding of a command with one payload word (30_encoding.md R50, R51). -/
theorem encode_of_payload_singleton {i : Instr} {w : Word} (hp : i.payload = [w]) :
    encode i = [headerNat i.op.opc.toNat i.selector.toNat 1, w] := by
  rw [encode, Instr.header, hp, List.length_singleton, headerWord_eq _ _ (by decide)]

/-- A command whose meaning is to answer one result word does only that (30_encoding.md R54). -/
theorem answersOnly_of_exec_eq_finish {i : Instr} {s : State} {w : Word} (he : exec i s = finish i.op s (.ok (s, [w]))) :
    answersOnly i s [headerNat i.op.opc.toNat 0 1, w] := by
  have hlen : [w].length < 65536 := by simp
  rw [answersOnly, he, finish_ok, respond_eq _ _ _ hlen, List.length_singleton]; rfl

/-- Settles O12: the result is `pack565`, whose number is the truncated packing. -/
theorem pack888TruncatesAndPacks : Obligations.Pack888TruncatesAndPacks := by
  intro r g b s
  have header : 0x01000001#32 = headerNat Op.pack888.opc.toNat 0 1 := by decide
  rw [header, ← rgbWord_eq, ← pack565_toNat, ← c16Word_eq]
  exact ⟨encode_of_payload_singleton rfl, answersOnly_of_exec_eq_finish rfl⟩

/-- Settles O13: the result is `pack565raw`, known bit by bit, and as a number when every component is in range. -/
theorem packRawOrsUnmaskedComponents : Obligations.PackRawOrsUnmaskedComponents := by
  intro r5 g6 b5 s
  have header : 0x02000001#32 = headerNat Op.packRaw.opc.toNat 0 1 := by decide
  rw [header, ← rgbWord_eq]
  refine ⟨encode_of_payload_singleton rfl, c16Word (pack565raw r5 g6 b5), answersOnly_of_exec_eq_finish rfl,
    fun k hk => ?_, c16Word_lt _, fun hr hg hb => ?_⟩
  · rw [c16Word_getLsbD _ hk, pack565raw_getLsbD r5 g6 b5 hk]
  · rw [c16Word_toNat, pack565raw_toNat hr hg hb]

/-- Settles O14: the result holds the components of `unpack565`. -/
theorem unpack565GivesTheComponents : Obligations.Unpack565GivesTheComponents := by
  intro c s
  have header : 0x03000001#32 = headerNat Op.unpack565.opc.toNat 0 1 := by decide
  rw [header, c16Nat, ← c16Word_eq, ← rgbWord_unpack565]
  exact ⟨encode_of_payload_singleton rfl, answersOnly_of_exec_eq_finish rfl⟩

/-- Settles O15: the result holds the components of `expand888`, which are the spec's quotients. -/
theorem unpack888ExpandsByTheFormula : Obligations.Unpack888ExpandsByTheFormula := by
  intro c s
  have header : 0x04000001#32 = headerNat Op.unpack888.opc.toNat 0 1 := by decide
  rw [header, c16Nat, ← c16Word_eq, ← rgbWord_expand888]
  exact ⟨encode_of_payload_singleton rfl, answersOnly_of_exec_eq_finish rfl⟩

end Sys2Proof.Machine
end

section
/-! PROOFS. The pixel buffer functions (41_pixelbuffer.md): what each coordinate function answers once `bufIndex` has answered, and what
the whole-buffer functions hold at each cell. -/

namespace Sys2Proof.Machine

/-! ### One cell: the answer follows that of `bufIndex` -/

theorem bufGet_of_bufIndex_ok {x y : Byte} {i : Fin 64} (h : bufIndex x y = .ok i) (buf : Buffer) :
    bufGet buf x y = .ok buf[i] := by
  rw [bufGet, h]; rfl

theorem bufGet_of_gt {x y : Byte} (h : 7 < x.toNat ∨ 7 < y.toNat) (buf : Buffer) : bufGet buf x y = .error .outOfRange := by
  rw [bufGet, bufIndex_of_gt h]; rfl

theorem bufSet_of_bufIndex_ok {x y : Byte} {i : Fin 64} (h : bufIndex x y = .ok i) (buf : Buffer) (c : Color16) :
    bufSet buf x y c = .ok (buf.set i c) := by
  rw [bufSet, h]; rfl

theorem bufSet_of_gt {x y : Byte} (h : 7 < x.toNat ∨ 7 < y.toNat) (buf : Buffer) (c : Color16) :
    bufSet buf x y c = .error .outOfRange := by
  rw [bufSet, bufIndex_of_gt h]; rfl

/-- A write changes exactly one cell (41_pixelbuffer.md R92). -/
theorem buffer_set_getElem (buf : Buffer) (i : Fin 64) (c : Color16) (j : Fin 64) :
    (buf.set i c)[j] = if j = i then c else buf[j] := by
  simp only [Fin.getElem_fin, Vector.getElem_set, Fin.ext_iff, eq_comm]

/-- For coordinates in range `bufIndex` answers the cell `(y << 3) | x` (41_pixelbuffer.md R90). -/
theorem exists_bufIndex_eq_shift_or {x y : Byte} (hx : x.toNat ≤ 7) (hy : y.toNat ≤ 7) :
    ∃ i : Fin 64, i.val = y.toNat <<< 3 ||| x.toNat ∧ bufIndex x y = .ok i := by
  have hcell := shift_or_eq_cell ⟨x.toNat, by omega⟩ ⟨y.toNat, by omega⟩
  exact ⟨⟨8 * y.toNat + x.toNat, by omega⟩, hcell.symm, bufIndex_of_le _ hx hy rfl⟩

/-! ### The whole buffer -/

theorem bufReadAll_length (buf : Buffer) : (bufReadAll buf).length = 64 := Vector.length_toList

theorem bufReadAll_getElem? (buf : Buffer) (i : Fin 64) : (bufReadAll buf)[i.val]? = some buf[i] := by
  rw [List.getElem?_eq_getElem ((bufReadAll_length buf).symm ▸ i.isLt)]
  exact congrArg some (Vector.getElem_toList _)

/-- Settles O18: the coordinate functions answer as `bufIndex` does and then read or write that one cell; the whole-buffer functions
cell by cell. -/
theorem pixelBufferPrimitives : Obligations.PixelBufferPrimitives := by
  refine ⟨fun x y h => ⟨bufIndex_of_gt h, bufGet_of_gt h, bufSet_of_gt h⟩, fun x y hx hy => ?_,
    fun c i => bufFill_getElem c i i.isLt, fun _ _ => rfl, fun buf => ⟨bufReadAll_length buf, bufReadAll_getElem? buf⟩,
    fun _ => bufWriteAll_of_other, fun _ => bufWriteAll_of_length⟩
  obtain ⟨i, hval, hindex⟩ := exists_bufIndex_eq_shift_or hx hy
  exact ⟨i, hval, hindex, bufGet_of_bufIndex_ok hindex,
    fun buf c => ⟨buf.set i c, bufSet_of_bufIndex_ok hindex buf c, buffer_set_getElem buf i c⟩⟩

end Sys2Proof.Machine
end

section
/-! PROOFS. The rotation engine (42_rotation.md). `rotIndex` is the spec's index table, so `rotApply` is the spec's reorder; the two
commands end in a raised status or in a written Display, and the lemmas on those two ends are about any command. -/

namespace Sys2Proof.Machine

open Sys2Proof.Safety

/-! ### The index table -/

theorem rev_val_eq_seven_sub (x : Fin 8) : x.rev.val = 7 - x.val := by
  rw [Fin.val_rev]; omega

/-- A cell as the shift and OR that the table writes (20_memory.md R31). -/
theorem cellOf_val (x y : Fin 8) : (cellOf x y).val = y.val <<< 3 ||| x.val := (shift_or_eq_cell x y).symm

/-- `RotIndex` is the table of 42_rotation.md R100. -/
theorem rotIndex_val (o : Orientation) (x y : Fin 8) : (rotIndex o x y).val = destinationNat o x.val y.val := by
  cases o <;> simp only [rotIndex, destinationNat, cellOf_val, rev_val_eq_seven_sub]

/-- A destination cell determines its source pixel, the one that R102 reads there (42_rotation.md R100). -/
theorem eq_of_rotIndex_eq {o : Orientation} {x y x' y' : Fin 8} (h : rotIndex o x y = rotIndex o x' y') : x = x' ∧ y = y' := by
  have hcell : cellOf x y = cellOf x' y' := by rw [← rotSource_rotIndex o x y, h, rotSource_rotIndex]
  have hcol := congrArg colOf hcell
  have hrow := congrArg rowOf hcell
  rw [colOf_cellOf, colOf_cellOf] at hcol
  rw [rowOf_cellOf, rowOf_cellOf] at hrow
  exact ⟨hcol, hrow⟩

/-- `RotApply` is the reorder of 42_rotation.md R101. -/
theorem reordered_rotApply (o : Orientation) (src : Buffer) : reordered o src (rotApply o src) := by
  intro x y
  have hdst : (rotApply o src)[(rotIndex o x y).val]? = some (rotApply o src)[rotIndex o x y] := Vector.getElem?_eq_getElem _
  have hsrc : src[(cellOf x y).val]? = some src[cellOf x y] := Vector.getElem?_eq_getElem _
  rw [← rotIndex_val, ← cellOf_val, hdst, rotApply_at_rotIndex, ← hsrc]

/-- Settles O35: the destinations are the cells of `rotIndex`, each of which determines the source pixel that `rotApply` reads for it. -/
theorem rotApplyIsABijectiveReorder : Obligations.RotApplyIsABijectiveReorder := by
  refine fun o => ⟨rotIndex_val o, reordered_rotApply o, fun x y => ?_, fun x y x' y' h => ?_⟩
  · rw [← rotIndex_val]
    exact (rotIndex o x y).isLt
  · rw [← rotIndex_val, ← rotIndex_val] at h
    exact eq_of_rotIndex_eq (Fin.ext h)

/-! ### How a command ends -/

/-- The encoding of a command without payload (30_encoding.md R50, R51). -/
theorem encode_of_payload_nil {i : Instr} (hp : i.payload = []) : encode i = [headerNat i.op.opc.toNat i.selector.toNat 0] := by
  rw [encode, Instr.header, hp, List.length_nil, headerWord_eq _ _ (by decide)]

/-- A command that raises only answers its status (60_exceptions.md R150). -/
theorem answersOnly_of_exec_eq_raise {i : Instr} {s : State} {st : Status} (he : exec i s = finish i.op s (.error st)) :
    answersOnly i s [headerNat i.op.opc.toNat (statusCode st).toNat 0] := by
  rw [answersOnly, he, finish_error, raiseStatus_eq]

/-- Outside Active a command that starts with the life-cycle check only answers `NotActive` (60_exceptions.md R157). -/
theorem answersOnly_notActive {i : Instr} {s : State} {k : Display → Answer} (he : exec i s = finish i.op s (needActive s >>= k))
    (hs : s.dstate ≠ .active) : answersOnly i s [headerNat i.op.opc.toNat (statusCode .notActive).toNat 0] := by
  rw [needActive_of_not_active hs, except_error_bind] at he
  exact answersOnly_of_exec_eq_raise he

/-- A command whose meaning is to write the Display answers `OK` without result words (30_encoding.md R54). -/
theorem answersWith_of_exec_eq_finish {i : Instr} {s : State} {d : Display}
    (he : exec i s = finish i.op s (.ok (setDisplay s d, []))) : answersWith i s d [headerNat i.op.opc.toNat 0 0] := by
  have hlen : ([] : List Word).length < 65536 := by decide
  rw [answersWith, he, finish_ok, respond_eq _ _ _ hlen]; rfl

/-! ### `SETROT` -/

/-- A `W_ROT` word in the claims' arithmetic (30_encoding.md R53). -/
theorem rotWord_eq (o : Byte) : rotWord o = BitVec.ofNat 32 o.toNat := by
  apply BitVec.eq_of_toNat_eq
  have := o.isLt
  rw [rotWord_toNat, BitVec.toNat_ofNat, Nat.mod_eq_of_lt (by omega)]

theorem orientationOf_of_code {o : Byte} {rot : Orientation} (h : orientationCode rot = o.toNat) : orientationOf o = .ok rot := by
  unfold orientationOf
  rw [← h]
  cases rot <;> rfl

theorem orientationOf_of_gt {o : Byte} (h : 5 < o.toNat) : orientationOf o = .error .outOfRange := by
  unfold orientationOf
  split
  case h_7 => rfl
  all_goals omega

/-- A present, where there is one, writes `front` alone (42_rotation.md R103). -/
theorem presentIf_eq (r : Bool) (d : Display) : presentIf r d = { d with front := (presentIf r d).front } := by
  cases r <;> rfl

/-- Under an Active Display `SETROT` is its check of the code and then its write (42_rotation.md R104). -/
theorem exec_setRot_of_active {s : State} {d : Display} (redraw : Bool) (o : Byte) (hl : s.life = .active d) :
    exec (.setRot redraw o) s =
      finish .setRot s (orientationOf o >>= fun rot => .ok (setDisplay s (presentIf redraw { d with rot := rot }), [])) := by
  rw [exec, execSetRot, needActive_of_active hl]; rfl

/-- Settles O33: the life-cycle check, then the check of the code, then a write of `rot` with the present it may bring. -/
theorem setRotWritesAndOptionallyPresents : Obligations.SetRotWritesAndOptionallyPresents := by
  intro redraw o s
  have notActive : 0x20080000#32 = headerNat Op.setRot.opc.toNat (statusCode .notActive).toNat 0 := by decide
  have outOfRange : 0x20020000#32 = headerNat Op.setRot.opc.toNat (statusCode .outOfRange).toNat 0 := by decide
  have ok : 0x20000000#32 = headerNat Op.setRot.opc.toNat 0 0 := by decide
  rw [notActive, outOfRange, ok]
  refine ⟨?_, answersOnly_notActive rfl, fun ha ho => ?_, fun d rot hl hcode => ?_⟩
  · rw [← rotWord_eq, encode_of_payload_singleton rfl]
    cases redraw <;> rfl
  · obtain ⟨d, hl⟩ := dstate_eq_active_iff.1 ha
    have he := exec_setRot_of_active redraw o hl
    rw [orientationOf_of_gt ho, except_error_bind] at he
    exact answersOnly_of_exec_eq_raise he
  · have he := exec_setRot_of_active redraw o hl
    rw [orientationOf_of_code hcode, except_ok_bind, presentIf_eq] at he
    refine ⟨_, answersWith_of_exec_eq_finish he, ?_, ?_⟩
    · rintro rfl
      rw [presentIf_true, doPresent_front]
      exact reordered_rotApply rot d.back
    · rintro rfl
      rfl

/-! ### `PRESENT` -/

/-- Under an Active Display `PRESENT` writes `back` reordered into `front` (42_rotation.md R103, R105). -/
theorem exec_present_of_active {s : State} {d : Display} (hl : s.life = .active d) :
    exec .present s = finish .present s (.ok (setDisplay s { d with front := rotApply d.rot d.back }, [])) := by
  rw [exec, execPresent, needActive_of_active hl, ← doPresent_eq]; rfl

/-- Settles O34: the life-cycle check, then `front` is the reordered `back`, which is `back` itself under the identity. -/
theorem presentReordersBackIntoFront : Obligations.PresentReordersBackIntoFront := by
  intro s
  have notActive : 0x21080000#32 = headerNat Op.present.opc.toNat (statusCode .notActive).toNat 0 := by decide
  have ok : 0x21000000#32 = headerNat Op.present.opc.toNat 0 0 := by decide
  rw [notActive, ok]
  refine ⟨encode_of_payload_nil rfl, answersOnly_notActive rfl, fun d hl => ?_⟩
  refine ⟨rotApply d.rot d.back, answersWith_of_exec_eq_finish (exec_present_of_active hl),
    reordered_rotApply d.rot d.back, fun hid => ?_⟩
  rw [hid, rotApply_identity]

end Sys2Proof.Machine
end

section
/-! PROOFS. The Display's life cycle and pixel commands (43_display.md). Every pixel command is the life-cycle check, at most one
more check, and then an answer or a write of `back`: the lemmas on those three ends are about any command, and each
obligation names the check that its command makes. -/

namespace Sys2Proof.Machine

open Sys2Proof.Safety

/-! ### Encodings -/

/-- The encoding of a command with `n` payload words (30_encoding.md R50, R51). -/
theorem encode_of_payload_length {i : Instr} {n : Nat} (hn : i.payload.length = n) (hlt : n < 65536) :
    encode i = headerNat i.op.opc.toNat i.selector.toNat n :: i.payload := by
  rw [encode, Instr.header, hn, headerWord_eq _ _ hlt]

/-- The selector `B` is 1 for `back` (30_encoding.md R55). -/
theorem bufSelBit_toNat (sel : BufSel) : (bufSelBit sel).toNat = if sel = .back then 1 else 0 := by
  cases sel <;> rfl

/-! ### How a pixel command ends -/

/-- Under an Active Display a command that starts with the life-cycle check goes on with that Display (60_exceptions.md R157). -/
theorem exec_of_active {i : Instr} {s : State} {d : Display} {k : Display → Answer}
    (he : exec i s = finish i.op s (needActive s >>= k)) (hl : s.life = .active d) : exec i s = finish i.op s (k d) := by
  rw [he, needActive_of_active hl, except_ok_bind]

/-- When the check `x` after the life-cycle check fails, the command only answers its status (60_exceptions.md R150). -/
theorem answersOnly_of_check_error {α : Type} {i : Instr} {s : State} {st : Status} {x : Display → Except Status α}
    {k : Display → α → Answer} (he : exec i s = finish i.op s (needActive s >>= fun d => x d >>= k d))
    (ha : s.dstate = .active) (hx : ∀ d, x d = .error st) :
    answersOnly i s [headerNat i.op.opc.toNat (statusCode st).toNat 0] := by
  obtain ⟨d, hl⟩ := dstate_eq_active_iff.1 ha
  have hd := exec_of_active he hl
  rw [hx, except_error_bind] at hd
  exact answersOnly_of_exec_eq_raise hd

/-- A command whose meaning is to answer the words `ws` does only that (30_encoding.md R54). -/
theorem answersOnly_words {i : Instr} {s : State} {ws : List Word} (hlen : ws.length < 65536)
    (he : exec i s = finish i.op s (.ok (s, ws))) : answersOnly i s (headerNat i.op.opc.toNat 0 ws.length :: ws) := by
  rw [answersOnly, he, finish_ok, respond_eq _ _ _ hlen]; rfl

/-- When the check `x` after the life-cycle check gives the new `back`, the command writes it and answers `OK`. -/
theorem answersWith_back {i : Instr} {s : State} {d : Display} {back : Buffer} {x : Display → Except Status Buffer}
    (he : exec i s = finish i.op s (needActive s >>= fun d => x d >>= fun b => .ok (setDisplay s { d with back := b }, [])))
    (hl : s.life = .active d) (hx : x d = .ok back) : answersWith i s { d with back := back } [headerNat i.op.opc.toNat 0 0] := by
  have hd := exec_of_active he hl
  rw [hx, except_ok_bind] at hd
  exact answersWith_of_exec_eq_finish hd

/-! ### `INIT` and `RELEASE` -/

theorem life_of_not_active {s : State} (hs : s.dstate ≠ .active) : s.life = .uninitialized ∨ s.life = .released := by
  cases hl : s.life with
  | active d => exact absurd (dstate_eq_active_iff.2 ⟨d, hl⟩) hs
  | uninitialized => exact .inl rfl
  | released => exact .inr rfl

theorem exec_init_of_active {s : State} (hs : s.dstate = .active) :
    exec .init s = finish .init s (.error .alreadyActive) := by
  obtain ⟨d, hl⟩ := dstate_eq_active_iff.1 hs
  simp only [exec, execInit, hl]

theorem exec_init_of_alloc_fail {s : State} (hs : s.dstate ≠ .active) (ha : s.alloc = .fail) :
    exec .init s = finish .init s (.error .allocationFailed) := by
  obtain hl | hl := life_of_not_active hs <;> simp only [exec, execInit, hl, ha]

/-- Settles O20: the life-cycle check, then the answer of `ALLOC`, then the fresh Display. -/
theorem initFollowsItsThreeCases : Obligations.InitFollowsItsThreeCases := by
  unfold Obligations.InitFollowsItsThreeCases
  have ok : 0x10000000#32 = headerNat Op.init.opc.toNat 0 0 := by decide
  have alreadyActive : 0x10010000#32 = headerNat Op.init.opc.toNat (statusCode .alreadyActive).toNat 0 := by decide
  have allocationFailed : 0x10060000#32 = headerNat Op.init.opc.toNat (statusCode .allocationFailed).toNat 0 := by decide
  rw [ok, alreadyActive, allocationFailed]
  refine ⟨encode_of_payload_nil rfl, fun s hs => answersOnly_of_exec_eq_raise (exec_init_of_active hs),
    fun s hs ha => answersOnly_of_exec_eq_raise (exec_init_of_alloc_fail hs ha), fun s hs ha => ?_⟩
  have zero (i : Fin 64) : freshDisplay.back[i] = 0 ∧ freshDisplay.front[i] = 0 :=
    ⟨bufFill_getElem 0 i i.isLt, bufFill_getElem 0 i i.isLt⟩
  exact ⟨freshDisplay, answersWith_of_exec_eq_finish (exec_init_of_alloc_ok hs ha), zero, rfl, rfl⟩

theorem exec_release_of_active {s : State} (hs : s.dstate = .active) :
    exec .release s = finish .release s (.ok ({ s with life := .released }, [])) := by
  obtain ⟨d, hl⟩ := dstate_eq_active_iff.1 hs
  simp only [exec, execRelease, hl]

theorem exec_release_of_not_active {s : State} (hs : s.dstate ≠ .active) :
    exec .release s = finish .release s (.ok (s, [])) := by
  obtain hl | hl := life_of_not_active hs <;> simp only [exec, execRelease, hl]

/-- Settles O21: the answer is `OK` in both cases, and only `life` is written, only while Active. -/
theorem releaseGivesTheDisplayBack : Obligations.ReleaseGivesTheDisplayBack := by
  unfold Obligations.ReleaseGivesTheDisplayBack
  have ok : 0x11000000#32 = headerNat Op.release.opc.toNat 0 0 := by decide
  rw [ok]
  have hlen : ([] : List Word).length < 65536 := by decide
  refine ⟨encode_of_payload_nil rfl, fun s hs => ?_,
    fun s hs => answersOnly_words (ws := []) hlen (exec_release_of_not_active hs)⟩
  rw [exec_release_of_active hs, finish_ok, respond_eq _ _ _ hlen]; rfl

/-! ### Reads -/

/-- The buffer a command reads is the one its selector names (43_display.md R116). -/
theorem selectBuffer_eq (d : Display) (sel : BufSel) : selectBuffer d sel = selectedBuffer d sel := by
  cases sel <;> rfl

/-- The encoding of a command with a selector `B` and a `W_XY` word (30_encoding.md R53, R55). -/
theorem encode_pixelRead {i : Instr} {sel : BufSel} {x y : Byte} (hp : i.payload = [pairWord x y])
    (hs : i.selector = bufSelBit sel) : encode i = [headerNat i.op.opc.toNat (if sel = .back then 1 else 0) 1, pairNat x y] := by
  rw [encode_of_payload_singleton hp, hs, bufSelBit_toNat, pairWord_eq]

/-- A command that reads one cell answers its `word` (43_display.md R116, R117). -/
theorem answersOnly_pixelRead {j : Instr} {s : State} {d : Display} {sel : BufSel} {x y : Byte} {word : Color16 → Word}
    (he : exec j s = finish j.op s
      (needActive s >>= fun d => bufGet (selectBuffer d sel) x y >>= fun c => .ok (s, [word c])))
    (hl : s.life = .active d) {i : Fin 64} (hi : bufIndex x y = .ok i) :
    answersOnly j s [headerNat j.op.opc.toNat 0 1, word (selectedBuffer d sel)[i]] := by
  have hd := exec_of_active he hl
  rw [bufGet_of_bufIndex_ok hi, except_ok_bind, selectBuffer_eq] at hd
  exact answersOnly_of_exec_eq_finish hd

/-- Settles O24: the cell is read by `bufGet` and answered expanded. -/
theorem getPixReadsTheExpandedCell : Obligations.GetPixReadsTheExpandedCell := by
  intro sel x y s
  have notActive : 0x12080000#32 = headerNat Op.getPix.opc.toNat (statusCode .notActive).toNat 0 := by decide
  have outOfRange : 0x12020000#32 = headerNat Op.getPix.opc.toNat (statusCode .outOfRange).toNat 0 := by decide
  have ok : 0x12000001#32 = headerNat Op.getPix.opc.toNat 0 1 := by decide
  rw [notActive, outOfRange, ok]
  refine ⟨encode_pixelRead rfl rfl, answersOnly_notActive rfl,
    fun ha hxy => answersOnly_of_check_error rfl ha fun _ => bufGet_of_gt hxy _, fun d i hl hx hy hi => ?_⟩
  rw [← rgbWord_expand888]
  exact answersOnly_pixelRead (word := fun c => rgbWord (expand888 c)) rfl hl (bufIndex_of_le i hx hy hi)

/-- Settles O25: the cell is read by `bufGet` and answered as its components. -/
theorem getPixRawReadsTheComponents : Obligations.GetPixRawReadsTheComponents := by
  intro sel x y s
  have notActive : 0x13080000#32 = headerNat Op.getPixRaw.opc.toNat (statusCode .notActive).toNat 0 := by decide
  have outOfRange : 0x13020000#32 = headerNat Op.getPixRaw.opc.toNat (statusCode .outOfRange).toNat 0 := by decide
  have ok : 0x13000001#32 = headerNat Op.getPixRaw.opc.toNat 0 1 := by decide
  rw [notActive, outOfRange, ok]
  refine ⟨encode_pixelRead rfl rfl, answersOnly_notActive rfl,
    fun ha hxy => answersOnly_of_check_error rfl ha fun _ => bufGet_of_gt hxy _, fun d i hl hx hy hi => ?_⟩
  rw [← rgbWord_unpack565]
  exact answersOnly_pixelRead (word := fun c => rgbWord (unpack565 c)) rfl hl (bufIndex_of_le i hx hy hi)

/-- Settles O26: the result words are the cells of `bufReadAll`, zero-extended. -/
theorem getAllRawReadsEveryCell : Obligations.GetAllRawReadsEveryCell := by
  intro sel s
  have notActive : 0x14080000#32 = headerNat Op.getAllRaw.opc.toNat (statusCode .notActive).toNat 0 := by decide
  have ok : 0x14000040#32 = headerNat Op.getAllRaw.opc.toNat 0 64 := by decide
  rw [notActive, ok]
  refine ⟨?_, answersOnly_notActive rfl, fun d hl => ?_⟩
  · rw [encode_of_payload_nil rfl, ← bufSelBit_toNat]; rfl
  · have hlen : ((bufReadAll (selectedBuffer d sel)).map c16Word).length = 64 := by rw [List.length_map, bufReadAll_length]
    have hd := exec_of_active (i := .getAllRaw sel) rfl hl
    rw [selectBuffer_eq] at hd
    have answer := answersOnly_words (by rw [hlen]; decide) hd
    rw [hlen] at answer
    refine ⟨_, answer, hlen, fun i => ?_⟩
    rw [List.getElem?_map, bufReadAll_getElem?, Option.map_some, c16Word_eq]

/-! ### Writes of one cell -/

/-- For coordinates in range `bufSet` changes the cell `8*y + x` and no other (41_pixelbuffer.md R92). -/
theorem bufSet_of_le {x y : Byte} (hx : x.toNat ≤ 7) (hy : y.toNat ≤ 7) (buf : Buffer) (c : Color16) :
    ∃ dst, bufSet buf x y c = .ok dst ∧ ∀ i : Fin 64, dst[i] = if i.val = 8 * y.toNat + x.toNat then c else buf[i] := by
  obtain ⟨cell, -, -, hcell, hindex⟩ | ⟨hgt, -⟩ := bufIndex_cases x y
  · refine ⟨buf.set cell c, bufSet_of_bufIndex_ok hindex buf c, fun i => ?_⟩
    rw [buffer_set_getElem, ← hcell]
    simp only [Fin.ext_iff]
  · omega

/-- `pack565` as a word made from its number (40_colorcodec.md R80). -/
theorem pack565_eq (r g b : Byte) : pack565 r g b = BitVec.ofNat 16 (packedNat r g b) := by
  rw [← pack565_toNat, BitVec.ofNat_toNat, BitVec.setWidth_eq]

/-- The encoding of a command with a `W_XY` and a `W_RGB` word and no selector (30_encoding.md R53). -/
theorem encode_pixelWrite {i : Instr} {x y r g b : Byte} (hp : i.payload = [pairWord x y, rgbWord ⟨r, g, b⟩])
    (hs : i.selector = false) : encode i = [headerNat i.op.opc.toNat 0 2, pairNat x y, rgbNat r g b] := by
  rw [encode_of_payload_length (n := 2) (congrArg List.length hp) (by decide), hp, hs, pairWord_eq, rgbWord_eq]; rfl

/-- Settles O27: `bufSet` writes `pack565` to the one cell. -/
theorem setPixWritesOneBackCell : Obligations.SetPixWritesOneBackCell := by
  intro x y r g b s
  have header : 0x15000002#32 = headerNat Op.setPix.opc.toNat 0 2 := by decide
  have notActive : 0x15080000#32 = headerNat Op.setPix.opc.toNat (statusCode .notActive).toNat 0 := by decide
  have outOfRange : 0x15020000#32 = headerNat Op.setPix.opc.toNat (statusCode .outOfRange).toNat 0 := by decide
  have ok : 0x15000000#32 = headerNat Op.setPix.opc.toNat 0 0 := by decide
  rw [header, notActive, outOfRange, ok]
  refine ⟨encode_pixelWrite rfl rfl, answersOnly_notActive rfl,
    fun ha hxy => answersOnly_of_check_error rfl ha fun _ => bufSet_of_gt hxy _ _, fun d hl hx hy => ?_⟩
  obtain ⟨back, hset, hcell⟩ := bufSet_of_le hx hy d.back (pack565 r g b)
  rw [pack565_eq] at hcell
  exact ⟨back, answersWith_back rfl hl hset, hcell⟩

/-- Settles O28: `bufSet` writes `pack565raw`, known bit by bit, to the one cell. -/
theorem setPixRawWritesOneBackCell : Obligations.SetPixRawWritesOneBackCell := by
  intro x y r5 g6 b5 s
  have header : 0x16000002#32 = headerNat Op.setPixRaw.opc.toNat 0 2 := by decide
  have notActive : 0x16080000#32 = headerNat Op.setPixRaw.opc.toNat (statusCode .notActive).toNat 0 := by decide
  have outOfRange : 0x16020000#32 = headerNat Op.setPixRaw.opc.toNat (statusCode .outOfRange).toNat 0 := by decide
  have ok : 0x16000000#32 = headerNat Op.setPixRaw.opc.toNat 0 0 := by decide
  rw [header, notActive, outOfRange, ok]
  refine ⟨encode_pixelWrite rfl rfl, answersOnly_notActive rfl,
    fun ha hxy => answersOnly_of_check_error rfl ha fun _ => bufSet_of_gt hxy _ _, fun d hl hx hy => ?_⟩
  obtain ⟨back, hset, hcell⟩ := bufSet_of_le hx hy d.back (pack565raw r5 g6 b5)
  refine ⟨back, answersWith_back rfl hl hset, fun i => ⟨fun hi k hk => ?_, fun hi => ?_⟩⟩
  · rw [hcell, if_pos hi, pack565raw_getLsbD r5 g6 b5 hk]
  · rw [hcell, if_neg hi]

/-! ### Writes of every cell -/

/-- Settles O29: `bufWriteAll` checks the count and then holds the values in order. -/
theorem setAllRawWritesAllOrNothing : Obligations.SetAllRawWritesAllOrNothing := by
  intro values s
  have notActive : 0x17080000#32 = headerNat Op.setAllRaw.opc.toNat (statusCode .notActive).toNat 0 := by decide
  have lengthMismatch : 0x17030000#32 = headerNat Op.setAllRaw.opc.toNat (statusCode .lengthMismatch).toNat 0 := by decide
  have ok : 0x17000000#32 = headerNat Op.setAllRaw.opc.toNat 0 0 := by decide
  rw [notActive, lengthMismatch, ok]
  refine ⟨fun hlen => ?_, answersOnly_notActive rfl,
    fun ha hne => answersOnly_of_check_error rfl ha fun _ => bufWriteAll_of_other hne, fun d hl hlen => ?_⟩
  · have hwords : values.map c16Nat = (Instr.setAllRaw values).payload := List.map_congr_left fun c _ => (c16Word_eq c).symm
    rw [hwords]
    exact encode_of_payload_length (List.length_map _) (by omega)
  · obtain ⟨back, hwrite, hcell⟩ := bufWriteAll_of_length hlen
    exact ⟨back, answersWith_back (x := fun _ => bufWriteAll values) rfl hl hwrite, hcell⟩

/-- Settles O30: after the life-cycle check `back` is `bufFill` of the operand, and the rest of the Display is kept. -/
theorem fillSetsEveryBackCell : Obligations.FillSetsEveryBackCell := by
  intro c s
  have header : 0x18000001#32 = headerNat Op.fill.opc.toNat 0 1 := by decide
  have notActive : 0x18080000#32 = headerNat Op.fill.opc.toNat (statusCode .notActive).toNat 0 := by decide
  have ok : 0x18000000#32 = headerNat Op.fill.opc.toNat 0 0 := by decide
  rw [header, notActive, ok]
  refine ⟨?_, answersOnly_notActive rfl, fun d hl => ?_⟩
  · rw [c16Nat, ← c16Word_eq]
    exact encode_of_payload_singleton rfl
  · exact ⟨bufFill c, answersWith_back (x := fun _ => .ok (bufFill c)) rfl hl rfl, fun i => bufFill_getElem c i i.isLt⟩

/-- A present from a `back` of one colour fills `front` with it, under every orientation (43_display.md R123). -/
theorem presentIf_bufFill_front (redraw : Bool) (d : Display) (c : Color16) (i : Fin 64) :
    (presentIf redraw { d with back := bufFill c }).front[i] = if redraw = true then c else d.front[i] := by
  cases redraw with
  | false => rfl
  | true => rw [presentIf_true, doPresent_front, Fin.getElem_fin, rotApply_getElem, Fin.getElem_fin, bufFill_getElem, if_pos rfl]

/-- Settles O31: `back` is filled with 0 and then, with redraw, presented. -/
theorem clearZeroesAndOptionallyPresents : Obligations.ClearZeroesAndOptionallyPresents := by
  intro redraw s
  have notActive : 0x19080000#32 = headerNat Op.clear.opc.toNat (statusCode .notActive).toNat 0 := by decide
  have ok : 0x19000000#32 = headerNat Op.clear.opc.toNat 0 0 := by decide
  rw [notActive, ok]
  refine ⟨?_, answersOnly_notActive rfl, fun d hl => ?_⟩
  · rw [encode_of_payload_nil rfl]
    cases redraw <;> rfl
  · have hd := exec_of_active (i := .clear redraw) rfl hl
    rw [presentIf_eq] at hd
    exact ⟨bufFill 0, _, answersWith_of_exec_eq_finish hd, fun i => bufFill_getElem 0 i i.isLt,
      presentIf_bufFill_front redraw d 0⟩

/-! ### `DRAWBITMAP` -/

theorem bitmapBuffer_of_other {w h : Byte} (hwh : ¬(w.toNat = 8 ∧ h.toNat = 8)) (pixels : List Rgb) :
    bitmapBuffer w h pixels = .error .invalidDimensions := by
  rw [bitmapBuffer, if_neg]
  rintro ⟨rfl, rfl⟩
  exact hwh ⟨rfl, rfl⟩

/-- An 8 by 8 bitmap of 64 pixels is laid out cell by cell (43_display.md R124). -/
theorem bitmapBuffer_of_length {w h : Byte} (hw : w.toNat = 8) (hh : h.toNat = 8) {pixels : List Rgb} (hlen : pixels.length = 64) :
    ∃ buf, bitmapBuffer w h pixels = .ok buf ∧ ∀ (i : Fin 64) (p : Rgb), pixels[i.val]? = some p → buf[i] = pack565 p.r p.g p.b := by
  have hdims : w = 8 ∧ h = 8 := ⟨BitVec.eq_of_toNat_eq hw, BitVec.eq_of_toNat_eq hh⟩
  obtain ⟨buf, hwrite, hcell⟩ :=
    bufWriteAll_of_length (values := pixels.map fun p => pack565 p.r p.g p.b) (by rw [List.length_map, hlen])
  refine ⟨buf, ?_, fun i p hp => ?_⟩
  · rw [bitmapBuffer, if_pos hdims, hwrite]
  · have hi := hcell i
    rw [List.getElem?_map, hp, Option.map_some] at hi
    exact (Option.some.inj hi).symm

/-- Settles O32: `bitmapBuffer` checks the shape; an 8 by 8 bitmap brings 64 pixels by `wf`. -/
theorem drawBitmapConvertsEveryPixel : Obligations.DrawBitmapConvertsEveryPixel := by
  intro w h pixels s hwf
  have notActive : 0x1A080000#32 = headerNat Op.drawBitmap.opc.toNat (statusCode .notActive).toNat 0 := by decide
  have invalidDimensions : 0x1A040000#32 = headerNat Op.drawBitmap.opc.toNat (statusCode .invalidDimensions).toNat 0 := by decide
  have ok : 0x1A000000#32 = headerNat Op.drawBitmap.opc.toNat 0 0 := by decide
  rw [notActive, invalidDimensions, ok]
  have hlen : pixels.length = w.toNat * h.toNat := of_decide_eq_true hwf
  refine ⟨?_, answersOnly_notActive rfl,
    fun ha hwh => answersOnly_of_check_error rfl ha fun _ => bitmapBuffer_of_other hwh pixels, fun d hl hw hh => ?_⟩
  · have hwords : pixels.map (fun p => rgbNat p.r p.g p.b) = pixels.map rgbWord :=
      List.map_congr_left fun p _ => (rgbWord_eq p.r p.g p.b).symm
    have hpayload : (Instr.drawBitmap w h pixels).payload.length = 1 + w.toNat * h.toNat := by
      simp [Instr.payload, hlen, Nat.add_comm]
    have hprod : w.toNat * h.toNat ≤ 255 * 255 :=
      Nat.mul_le_mul (Nat.le_of_lt_succ w.isLt) (Nat.le_of_lt_succ h.isLt)
    rw [hwords, ← pairWord_eq]
    exact encode_of_payload_length hpayload (by omega)
  · obtain ⟨back, hback, hcell⟩ := bitmapBuffer_of_length hw hh (hlen.trans (by rw [hw, hh]))
    refine ⟨back, answersWith_back (x := fun _ => bitmapBuffer w h pixels) rfl hl hback, fun i p hp => ?_⟩
    rw [hcell i p hp, pack565_eq]

end Sys2Proof.Machine
end

section
/-! PROOFS. The glyph blitter (44_glyph.md): the font functions, `GLYPHBITS` and `LOADFONT`, and for `SCROLL` the column sequence and the
window. A message's columns are found by their place: before every printable character a blank column, then its own, a block of
`w + 1`; `BuildColumns` leaves out the first blank of all. -/

namespace Sys2Proof.Machine

open Sys2Proof.Safety

/-! ### Fonts and glyph words -/

/-- `Glyph` of a printable character is its entry of the font (44_glyph.md R132). -/
theorem lookUpGlyph_of_index {ch : Word} {k : Fin 95} (h : ch.toNat = 0x20 + k.val) (f : Font) :
    lookUpGlyph f ch = .ok f.glyphs[k] := by
  rw [lookUpGlyph, glyphIndex_eq_some_iff.2 h]

theorem printable_of_glyphIndex_some {ch : Word} {g : Fin 95} (h : glyphIndex ch = some g) : printable ch = true := by
  rw [← glyphIndex_isSome, h]; rfl

theorem printable_of_glyphIndex_none {ch : Word} (h : glyphIndex ch = none) : printable ch = false := by
  rw [← glyphIndex_isSome, h]; rfl

/-- A character that is not printable has no glyph (44_glyph.md R135). -/
theorem lookUpGlyph_of_not_printable {ch : Word} (h : printable ch = false) (f : Font) :
    lookUpGlyph f ch = .error .unsupportedChar := by
  rw [lookUpGlyph]
  cases hg : glyphIndex ch with
  | none => rfl
  | some k => rw [printable_of_glyphIndex_some hg] at h; cases h

/-- The bits of a glyph's rows before `row` and of its columns up to `col` are among its `w * h` (44_glyph.md R133). -/
theorem row_mul_add_col_lt {w h row col : Nat} (hrow : row < h) (hcol : col < w) : row * w + col + 1 ≤ w * h :=
  calc row * w + col + 1 ≤ (row + 1) * w := by rw [Nat.succ_mul]; omega
    _ ≤ h * w := Nat.mul_le_mul_right w hrow
    _ = w * h := Nat.mul_comm h w

/-- Settles O19: `SelectFont` follows the selector, `Glyph` the table, and `GlyphBit` the width-based index. -/
theorem fontAndGlyphFunctions : Obligations.FontAndGlyphFunctions := by
  refine ⟨fun s => rfl, fun s h => selectFont_of_none (sel := .user) h, fun s f h => selectFont_of_selectedFont (sel := .user) h,
    fun f ch k h => lookUpGlyph_of_index h f, fun f g row col hrow hcol => ?_⟩
  exact ⟨glyphBit_eq_pixelLit f g row col, row_mul_add_col_lt hrow hcol⟩

/-- The two halves of a glyph as a number, the high one first (30_encoding.md R61). -/
theorem hiWord_mul_add_loWord (g : GlyphWord) : (hiWord g).toNat * 2 ^ 32 + (loWord g).toNat = g.toNat := by
  have hlt := g.isLt
  simp only [hiWord, loWord, BitVec.extractLsb'_toNat, Nat.shiftRight_eq_div_pow]
  omega

/-! ### `GLYPHBITS` -/

/-- The selector `F` is 1 for `ufont` (30_encoding.md R55). -/
theorem fontSelBit_toNat (sel : FontSel) : (fontSelBit sel).toNat = if sel = .user then 1 else 0 := by
  cases sel <;> rfl

/-- With its font selected `GLYPHBITS` looks the character up and answers the two halves (44_glyph.md R135). -/
theorem exec_glyphBits_of_font {s : State} {sel : FontSel} {f : Font} (hf : selectedFont s sel = some f) (ch : Word) :
    exec (.glyphBits sel ch) s = finish .glyphBits s (lookUpGlyph f ch >>= fun g => .ok (s, [hiWord g, loWord g])) := by
  rw [exec, execGlyphBits, selectFont_of_selectedFont hf, except_ok_bind]; rfl

theorem exec_glyphBits_of_no_font {s : State} {sel : FontSel} (hf : selectedFont s sel = none) (ch : Word) :
    exec (.glyphBits sel ch) s = finish .glyphBits s (.error .invalidFont) := by
  rw [exec, execGlyphBits, selectFont_of_none hf, except_error_bind]

/-- Settles O38: the check of the font, then of the character, then the halves of the stored word. -/
theorem glyphBitsReadsTheStoredWord : Obligations.GlyphBitsReadsTheStoredWord := by
  intro sel ch s
  have invalidFont : 0x300A0000#32 = headerNat Op.glyphBits.opc.toNat (statusCode .invalidFont).toNat 0 := by decide
  have unsupportedChar : 0x30050000#32 = headerNat Op.glyphBits.opc.toNat (statusCode .unsupportedChar).toNat 0 := by decide
  have ok : 0x30000002#32 = headerNat Op.glyphBits.opc.toNat 0 2 := by decide
  rw [invalidFont, unsupportedChar, ok, ← fontSelBit_toNat]
  refine ⟨encode_of_payload_singleton rfl, fun hf => answersOnly_of_exec_eq_raise (exec_glyphBits_of_no_font hf ch),
    fun f hf hch => ?_, fun f k hf hch => ?_⟩
  · have he := exec_glyphBits_of_font hf ch
    rw [lookUpGlyph_of_not_printable hch, except_error_bind] at he
    exact answersOnly_of_exec_eq_raise he
  · have he := exec_glyphBits_of_font hf ch
    rw [lookUpGlyph_of_index hch, except_ok_bind] at he
    have hlen : [hiWord f.glyphs[k], loWord f.glyphs[k]].length < 65536 := by simp
    have answer := answersOnly_words (i := .glyphBits sel ch) hlen he
    exact ⟨_, _, answer, hiWord_mul_add_loWord _⟩

/-! ### `LOADFONT` -/

/-- Glyph `k` of a `LOADFONT` payload is words `2k` and `2k + 1`, high half first (30_encoding.md R61). -/
theorem glyphWords_getElem? {gs : List GlyphWord} {k : Nat} {g : GlyphWord} (hk : gs[k]? = some g) :
    (glyphWords gs)[2 * k]? = some (hiWord g) ∧ (glyphWords gs)[2 * k + 1]? = some (loWord g) := by
  induction gs generalizing k with
  | nil => cases hk
  | cons g₀ gs ih =>
    cases k with
    | zero => cases hk; exact ⟨rfl, rfl⟩
    | succ k => exact ih hk

theorem exec_loadFont_of_gt {w h : Byte} (hwh : 64 < w.toNat * h.toNat) (glyphs : GlyphTable) (s : State) :
    exec (.loadFont w h glyphs) s = finish .loadFont s (.error .invalidFont) := by
  rw [exec, execLoadFont, if_pos hwh]

/-- A font of at most 64 pixels replaces the whole user font (44_glyph.md R136). -/
theorem exec_loadFont_of_le {w h : Byte} (hwh : w.toNat * h.toNat ≤ 64) (glyphs : GlyphTable) (s : State) :
    exec (.loadFont w h glyphs) s =
      finish .loadFont s (.ok ({ s with ufont := some { w := w, h := h, glyphs := glyphs } }, [])) := by
  rw [exec, execLoadFont, if_neg (Nat.not_lt.2 hwh)]

/-- Settles O39: the payload holds the glyphs' halves in order, and the check of `w * h` comes before the write of `ufont`. -/
theorem loadFontReplacesTheUserFont : Obligations.LoadFontReplacesTheUserFont := by
  intro w h glyphs s
  have header : 0x310000BF#32 = headerNat Op.loadFont.opc.toNat 0 191 := by decide
  have invalidFont : 0x310A0000#32 = headerNat Op.loadFont.opc.toNat (statusCode .invalidFont).toNat 0 := by decide
  have ok : 0x31000000#32 = headerNat Op.loadFont.opc.toNat (statusCode .ok).toNat 0 := by decide
  rw [header, invalidFont, ok]
  have hwords : (glyphWords glyphs.toList).length = 190 := by rw [glyphWords_length, Vector.length_toList]
  refine ⟨⟨glyphWords glyphs.toList, ?_, hwords, fun k => ?_⟩,
    fun hlarge => ?_, fun hfits => ?_⟩
  · rw [← pairWord_eq]
    exact encode_of_payload_length (congrArg (· + 1) hwords) (by decide)
  · have hk : glyphs.toList[k.val]? = some glyphs[k] := by simp
    obtain ⟨hi, lo⟩ := glyphWords_getElem? hk
    exact ⟨_, _, hi, lo, hiWord_mul_add_loWord _⟩
  · exact answersOnly_of_exec_eq_raise (exec_loadFont_of_gt hlarge glyphs s)
  · have hlen : ([] : List Word).length < 65536 := by decide
    rw [exec_loadFont_of_le hfits, finish_ok, respond_eq _ _ _ hlen]; rfl

/-! ### The columns of a message -/

/-- A message's columns are its blocks without the first blank (44_glyph.md R142). -/
theorem messageColumns_true_eq_tail (f : Font) (msg : List Word) : messageColumns f true msg = (messageColumns f false msg).tail := by
  induction msg with
  | nil => rfl
  | cons ch rest ih =>
    cases hg : glyphIndex ch with
    | none =>
      have hp := printable_of_glyphIndex_none hg
      rw [messageColumns_skip hp, messageColumns_skip hp, ih]
    | some g => rw [messageColumns_glyph hg, messageColumns_glyph hg]; rfl

/-- The block of the `j`-th printable character stands at `j * (w + 1)`: a blank column, then the glyph's (44_glyph.md R142). -/
theorem messageColumns_false_getElem? {f : Font} {msg : List Word} {j k : Nat} {ch : Word} {g : Fin 95}
    (hj : (msg.filter printable)[j]? = some ch) (hg : glyphIndex ch = some g) (hk : k ≤ f.w.toNat) :
    (messageColumns f false msg)[j * (f.w.toNat + 1) + k]? = (0 :: glyphColumns f f.glyphs[g])[k]? := by
  induction msg generalizing j with
  | nil => cases hj
  | cons ch₀ rest ih =>
    cases hg₀ : glyphIndex ch₀ with
    | none =>
      have hp := printable_of_glyphIndex_none hg₀
      rw [List.filter_cons_of_neg (by simp [hp])] at hj
      rw [messageColumns_skip hp, ih hj]
    | some g₀ =>
      rw [List.filter_cons_of_pos (printable_of_glyphIndex_some hg₀)] at hj
      have hcols : messageColumns f false (ch₀ :: rest) = (0 :: glyphColumns f f.glyphs[g₀]) ++ messageColumns f false rest :=
        messageColumns_glyph hg₀
      have hblock : (0 :: glyphColumns f f.glyphs[g₀]).length = f.w.toNat + 1 := by simp
      rw [hcols]
      cases j with
      | zero =>
        cases hj
        cases hg₀.symm.trans hg
        rw [Nat.zero_mul, Nat.zero_add, List.getElem?_append_left (by omega)]
      | succ j =>
        have hindex : (j + 1) * (f.w.toNat + 1) + k = (f.w.toNat + 1) + (j * (f.w.toNat + 1) + k) := by ring
        rw [hindex, List.getElem?_append_right (by omega), hblock, Nat.add_sub_cancel_left, ih hj]

/-- What stands between the two pads of `BuildColumns` (44_glyph.md R142). -/
theorem buildColumns_getElem? {f : Font} {msg : List Word} {m : Nat} {v : Byte} (h : (messageColumns f false msg)[m + 1]? = some v) :
    (buildColumns f msg)[8 + m]? = some v := by
  have hm : (messageColumns f true msg)[m]? = some v := by rw [messageColumns_true_eq_tail, List.getElem?_tail, h]
  obtain ⟨hlt, -⟩ := List.getElem?_eq_some_iff.1 hm
  rw [buildColumns, List.append_assoc, List.getElem?_append_right (by simp), List.length_replicate, Nat.add_sub_cancel_left,
    List.getElem?_append_left hlt, hm]

/-- The total of 44_glyph.md R142. -/
theorem buildColumns_length (f : Font) (msg : List Word) :
    (buildColumns f msg).length = totalColumns f.w.toNat (msg.filter printable).length := by
  have hlen : (buildColumns f msg).length = 8 + (messageColumns f true msg).length + 8 := by
    simp only [buildColumns, List.length_append, List.length_replicate]
  rw [hlen, messageColumns_true_length, totalColumns]
  split
  case isTrue hnone => rw [hnone, Nat.zero_mul]
  case isFalse hsome =>
    have hpos : 0 < (msg.filter printable).length * (f.w.toNat + 1) := Nat.mul_pos (Nat.pos_of_ne_zero hsome) (Nat.succ_pos _)
    omega

theorem buildColumns_take (f : Font) (msg : List Word) : (buildColumns f msg).take 8 = List.replicate 8 0 := by
  rw [buildColumns, List.append_assoc]
  exact List.take_left' List.length_replicate

theorem buildColumns_drop (f : Font) (msg : List Word) :
    (buildColumns f msg).drop ((buildColumns f msg).length - 8) = List.replicate 8 0 := by
  refine List.drop_left' ?_
  simp [buildColumns]

/-- Column `k` of the `j`-th printable character is column `k` of its glyph (44_glyph.md R142). -/
theorem buildColumns_getElem?_glyph {f : Font} {msg : List Word} {j k : Nat} {ch : Word} {g : Fin 95}
    (hj : (msg.filter printable)[j]? = some ch) (hg : glyphIndex ch = some g) (hk : k < f.w.toNat) :
    (buildColumns f msg)[8 + j * (f.w.toNat + 1) + k]? = some (glyphColumn f f.glyphs[g] k) := by
  rw [Nat.add_assoc]
  apply buildColumns_getElem?
  rw [Nat.add_assoc, messageColumns_false_getElem? hj hg hk, List.getElem?_cons_succ]
  simp [glyphColumns, hk]

/-- Between two printable characters stands one blank column (44_glyph.md R142). -/
theorem buildColumns_getElem?_gap {f : Font} {msg : List Word} {j : Nat} (hj : j + 1 < (msg.filter printable).length) :
    (buildColumns f msg)[8 + j * (f.w.toNat + 1) + f.w.toNat]? = some 0 := by
  have hch : (msg.filter printable)[j + 1]? = some (msg.filter printable)[j + 1] := List.getElem?_eq_getElem hj
  have hp : printable (msg.filter printable)[j + 1] = true := List.of_mem_filter (List.getElem_mem hj)
  rw [← glyphIndex_isSome] at hp
  obtain ⟨g, hg⟩ := Option.isSome_iff_exists.1 hp
  have hindex : j * (f.w.toNat + 1) + f.w.toNat + 1 = (j + 1) * (f.w.toNat + 1) + 0 := by ring
  rw [Nat.add_assoc]
  apply buildColumns_getElem?
  rw [hindex, messageColumns_false_getElem? hch hg (Nat.zero_le _)]; rfl

/-- Settles O44: the total and the pads by the shape of `BuildColumns`, the columns between by the place of their block. -/
theorem buildColumnsLaysOutTheMessage : Obligations.BuildColumnsLaysOutTheMessage := by
  intro f msg hh chars cols
  refine ⟨buildColumns_length f msg, buildColumns_take f msg, buildColumns_drop f msg, fun j ch g k hj hch hk => ?_,
    fun j hj => buildColumns_getElem?_gap hj⟩
  exact ⟨_, buildColumns_getElem?_glyph hj (glyphIndex_eq_some_iff.2 hch) hk, fun l hl => glyphColumn_getLsbD f _ k hh hl⟩

/-! ### The window -/

/-- Settles O59: the cell of column `j`, row `k` is drawn from `cols[pos + j]`, which the window has. -/
theorem drawWindowClearsAndDrawsEightColumns : Obligations.DrawWindowClearsAndDrawsEightColumns := by
  intro cols pos c hwindow j k
  have hj : cols[pos + j.val]? = some cols[pos + j.val] := List.getElem?_eq_getElem (by omega)
  have hcell : (drawWindow cols pos c)[(cellOf j k).val]? = some (drawWindow cols pos c)[cellOf j k] := Vector.getElem?_eq_getElem _
  refine ⟨_, hj, hcell.trans ?_⟩
  rw [Fin.getElem_fin, drawWindow_getElem, Fin.eta, colOf_cellOf, rowOf_cellOf, List.getD_eq_getElem?_getD, hj, Option.getD_some]

end Sys2Proof.Machine
end

section
/-! PROOFS. Three statuses (60_exceptions.md): `NotActive`, which `exec_cases` rules out for the 8 commands without the life-cycle check;
`InvalidFont`, where no font is selected or one is too large; and `Cancelled`, which a frame raises and not a command. -/

namespace Sys2Proof.Machine

open Sys2Proof.Safety

/-! ### The checks of `SCROLL` -/

/-- A `SCROLL` whose checks fail raises, as every other command does (44_glyph.md R140). -/
theorem exec_scroll_of_error {s : State} {sel : FontSel} {c : Color16} {delay : Word} {msg : List Word} {st : Status}
    (h : startScroll sel c delay msg s = .error st) : exec (.scroll sel c delay msg) s = finish .scroll s (.error st) := by
  rw [exec, execScroll, h, finish_error]

/-- The life-cycle check is the first (44_glyph.md R140). -/
theorem startScroll_of_not_active {s : State} (hs : s.dstate ≠ .active) (sel : FontSel) (c : Color16) (delay : Word)
    (msg : List Word) : startScroll sel c delay msg s = .error .notActive := by
  rw [startScroll, needActive_of_not_active hs, except_error_bind]

/-- The check of the font comes next, before the columns are built (44_glyph.md R140). -/
theorem startScroll_of_no_font {s : State} {sel : FontSel} (ha : s.dstate = .active) (hf : selectedFont s sel = none)
    (c : Color16) (delay : Word) (msg : List Word) : startScroll sel c delay msg s = .error .invalidFont := by
  obtain ⟨d, hl⟩ := dstate_eq_active_iff.1 ha
  rw [startScroll, needActive_of_active hl, except_ok_bind, selectFont_of_none hf, except_error_bind]

/-! ### `NotActive` -/

/-- Outside Active each of the 13 commands only answers `NotActive` (60_exceptions.md R157). -/
theorem answersOnly_notActive_of_needsDisplay {i : Instr} {s : State} (hi : needsDisplay i.op = true) (hs : s.dstate ≠ .active) :
    answersOnly i s [headerNat i.op.opc.toNat (statusCode .notActive).toNat 0] := by
  cases i with
  | getPix | getPixRaw | getAllRaw | setPix | setPixRaw | setAllRaw | fill | clear | drawBitmap | setRot | present | drawLetter =>
    exact answersOnly_notActive rfl hs
  | scroll sel c delay msg =>
    exact answersOnly_of_exec_eq_raise (exec_scroll_of_error (startScroll_of_not_active hs sel c delay msg))
  | pack888 | packRaw | unpack565 | unpack888 | init | release | glyphBits | loadFont => cases hi

/-- The `STATUS` byte of a response header (30_encoding.md R54). -/
theorem responseHeader_status (opc : Byte) (st : Status) (n : Nat) :
    (responseHeader opc st n).extractLsb' 16 8 = statusCode st := by
  rw [responseHeader, BitVec.extractLsb'_append_eq_of_le (by decide)]
  exact BitVec.extractLsb'_append_eq_right

/-- A status is `NotActive` when its code is (60_exceptions.md R151). -/
theorem eq_notActive_of_statusCode {st : Status} (h : statusCode st = statusCode .notActive) : st = .notActive := by
  cases st
  case notActive => rfl
  all_goals cases h

/-- What a command that answers `OK` writes leaves the responses already emitted. -/
theorem Wrote.rsp_eq {i : Instr} {s u : State} (h : Wrote i s u) : u.rsp = s.rsp := by
  cases h <;> rfl

/-- A response whose one new word is the `NotActive` header carries `NotActive`. -/
theorem eq_notActive_of_respond_rsp {op : Op} {st : Status} {ws : List Word} {s u : State} (hu : u.rsp = s.rsp)
    (h : (respond op.opc st ws u).rsp = s.rsp ++ [headerNat op.opc.toNat (statusCode .notActive).toNat 0]) :
    st = .notActive := by
  rw [← responseHeader_eq op .notActive (by decide), respond_rsp, hu] at h
  obtain ⟨hheader, -⟩ := List.cons.inj (List.append_cancel_left h)
  have hcode := congrArg (BitVec.extractLsb' 16 8) hheader
  rw [responseHeader_status, responseHeader_status] at hcode
  exact eq_notActive_of_statusCode hcode

/-- A command that emits the `NotActive` header is one of the 13: `exec_cases` says what it can emit (60_exceptions.md R157, R160). -/
theorem needsDisplay_of_emits_notActive {i : Instr} {s t : State} (he : exec i s = .next t)
    (hr : t.rsp = s.rsp ++ [headerNat i.op.opc.toNat (statusCode .notActive).toNat 0]) : needsDisplay i.op = true := by
  cases exec_cases he with
  | raised st hmay =>
    obtain rfl := eq_notActive_of_respond_rsp (ws := []) (u := s) rfl hr
    exact hmay
  | answered ws hlen hw => cases eq_notActive_of_respond_rsp hw.rsp_eq hr
  | started => exact absurd (List.self_eq_append_right.1 hr) (List.cons_ne_nil _ _)

/-- Settles O23: the 13 commands start with the life-cycle check; a command that emits the header is one of them. -/
theorem notActiveForThirteenCommands : Obligations.NotActiveForThirteenCommands := by
  refine ⟨fun i s hi hs => answersOnly_notActive_of_needsDisplay hi hs, fun i s t hi he hr => ?_⟩
  have hneeds := needsDisplay_of_emits_notActive he hr
  exact Bool.noConfusion (hneeds.symm.trans hi)

/-! ### `InvalidFont` -/

/-- Settles O41: the check of the font comes before every use of it, and that of `w * h` before the write of `ufont`. -/
theorem invalidFontHasTwoCauses : Obligations.InvalidFontHasTwoCauses := by
  unfold Obligations.InvalidFontHasTwoCauses
  have glyphBitsHeader : 0x300A0000#32 = headerNat Op.glyphBits.opc.toNat (statusCode .invalidFont).toNat 0 := by decide
  have drawLetterHeader : 0x320A0000#32 = headerNat Op.drawLetter.opc.toNat (statusCode .invalidFont).toNat 0 := by decide
  have scrollHeader : 0x330A0000#32 = headerNat Op.scroll.opc.toNat (statusCode .invalidFont).toNat 0 := by decide
  have loadFontHeader : 0x310A0000#32 = headerNat Op.loadFont.opc.toNat (statusCode .invalidFont).toNat 0 := by decide
  rw [glyphBitsHeader, drawLetterHeader, scrollHeader, loadFontHeader]
  refine ⟨fun ch s hf => ?_, fun ch c s hf ha => ?_, fun c delay msg s hf ha => ?_, fun w h glyphs s hlarge => ?_⟩
  · exact answersOnly_of_exec_eq_raise (exec_glyphBits_of_no_font (sel := .user) hf ch)
  · exact answersOnly_of_check_error rfl ha fun _ => selectFont_of_none (sel := .user) hf
  · exact answersOnly_of_exec_eq_raise (exec_scroll_of_error (startScroll_of_no_font (sel := .user) ha hf c delay msg))
  · exact answersOnly_of_exec_eq_raise (exec_loadFont_of_gt hlarge glyphs s)

/-! ### `Cancelled` -/

/-- With a window left and `cancel` 1, a frame ends the scroll before it draws (44_glyph.md R145). -/
theorem scrollFrame_of_cancel {d : Display} {r : ScrollRun} {s : State} (hwindow : r.pos + 8 ≤ r.cols.length)
    (hcancel : s.cancel = true) : scrollFrame d r s = endScroll .cancelled d r.count s := by
  rw [scrollFrame, hasWindow, if_pos (decide_eq_true hwindow), if_pos hcancel]

/-- The end of a scroll as emitted words: the status, one result word and the count (44_glyph.md R140, R145). -/
theorem endScroll_eq (st : Status) (d : Display) (count : Nat) (s : State) :
    endScroll st d count s = { s with
      life := .active { d with scroll := .idle }
      rsp := s.rsp ++ [headerNat Op.scroll.opc.toNat (statusCode st).toNat 1, BitVec.ofNat 32 count] } :=
  respond_eq .scroll st _ (by simp)

/-- The invariant on a scroll in flight (10_state.md R17). -/
theorem scrollInRange_of_inv {s : State} {r : ScrollRun} (hinv : inv s = true) (hr : s.scroll = .running r) :
    scrollInRange r = true := by
  rw [inv, hr, Bool.and_eq_true] at hinv
  exact hinv.2

/-- A scroll in range has presented one frame for each window passed (44_glyph.md R140). -/
theorem count_eq_pos_of_scrollInRange {r : ScrollRun} (h : scrollInRange r = true) : r.count = r.pos := by
  simp only [scrollInRange, Bool.and_eq_true, decide_eq_true_eq] at h
  obtain ⟨⟨⟨-, hcount⟩, -⟩, -⟩ := h
  exact hcount

/-- Settles O46: the step is one frame, which reads `cancel` before it draws; the count is the window position by the invariant. -/
theorem cancelEndsTheScrollAtAFrame : Obligations.CancelEndsTheScrollAtAFrame := by
  intro s d r hl hr hinputs hcancel hwindow
  have cancelled : 0x330B0001#32 = headerNat Op.scroll.opc.toNat (statusCode .cancelled).toNat 1 := by decide
  rw [cancelled, step_of_running hl hr hinputs, scrollFrame_of_cancel hwindow hcancel, endScroll_eq]
  exact ⟨rfl, fun hinv => count_eq_pos_of_scrollInRange (scrollInRange_of_inv hinv ((scroll_of_active hl).trans hr))⟩

end Sys2Proof.Machine
end

section
/-! PROOFS. The reset event (70_reset_and_hazards.md R176), through the elements that `life` holds. -/

namespace Sys2Proof.Machine

/-! ### What the reset event leaves of the elements of 10_state.md R23 -/

@[simp] theorem resetEvent_dstate (s : State) : (resetEvent s).dstate = .uninitialized := rfl
@[simp] theorem resetEvent_display (s : State) : (resetEvent s).display = none := rfl
@[simp] theorem resetEvent_scroll (s : State) : (resetEvent s).scroll = .idle := rfl

/-- The built-in font is constant, also under reset (10_state.md R15). -/
@[simp] theorem resetEvent_dfont (s : State) : (resetEvent s).dfont = s.dfont := rfl

/-- The built-in font is 5 by 8 over the constant table (10_state.md R15). -/
theorem dfont_eq (s : State) : s.dfont = { w := 5, h := 8, glyphs := s.dfontGlyphs } := rfl

/-- Settles O9: the reset event is all that happens in its step, before the block looks at its scroll or its stream; it forgets the
whole command stream, so a partly received packet with it. -/
theorem resetEventRestoresTheBlock : Obligations.ResetEventRestoresTheBlock := by
  intro s ins hinputs
  let taken : State := { s with inputs := ins }
  exact ⟨resetEvent taken, step_of_reset hinputs, resetEvent_dstate taken, resetEvent_display taken, resetEvent_ufont taken,
    resetEvent_scroll taken, (resetEvent_dfont taken).trans (dfont_eq taken), resetEvent_rsp taken, resetEvent_cancel taken,
    resetEvent_alloc taken, resetEvent_inputs taken, fun _ => resetEvent_cmd taken⟩

end Sys2Proof.Machine
end

section
/-! PROOFS. Packets in both directions (30_encoding.md): what the encoder writes is framed and decoded back; what decodes is what the
encoder writes, so its header is the header of one row; and a packet that meets none of the conditions (a) to (g) decodes. -/

namespace Sys2Proof

open Sys2Proof.Safety Sys2Proof.Laws

/-- Settles O1: each packet is written out, so the decoder computes its command. -/
theorem workedEncodingsDecode : Obligations.WorkedEncodingsDecode := by
  unfold Obligations.WorkedEncodingsDecode
  decide

/-! ### From the command to its packet and back -/

/-- The four fields of every well-formed command's header read back (30_encoding.md R51). -/
theorem header_fields (i : Instr) : HeaderFraming.Statement i := by
  cases i with
  | pack888 r g b => exact HeaderFraming.pack888 r g b
  | packRaw r5 g6 b5 => exact HeaderFraming.packRaw r5 g6 b5
  | unpack565 c => exact HeaderFraming.unpack565 c
  | unpack888 c => exact HeaderFraming.unpack888 c
  | init => exact HeaderFraming.init
  | release => exact HeaderFraming.release
  | getPix sel x y => exact HeaderFraming.getPix sel x y
  | getPixRaw sel x y => exact HeaderFraming.getPixRaw sel x y
  | getAllRaw sel => exact HeaderFraming.getAllRaw sel
  | setPix x y r g b => exact HeaderFraming.setPix x y r g b
  | setPixRaw x y r5 g6 b5 => exact HeaderFraming.setPixRaw x y r5 g6 b5
  | setAllRaw values => exact HeaderFraming.setAllRaw values
  | fill c => exact HeaderFraming.fill c
  | clear redraw => exact HeaderFraming.clear redraw
  | drawBitmap w h pixels => exact HeaderFraming.drawBitmap w h pixels
  | setRot redraw o => exact HeaderFraming.setRot redraw o
  | present => exact HeaderFraming.present
  | glyphBits sel ch => exact HeaderFraming.glyphBits sel ch
  | loadFont w h glyphs => exact HeaderFraming.loadFont w h glyphs
  | drawLetter sel ch c => exact HeaderFraming.drawLetter sel ch c
  | scroll sel c delay msg => exact HeaderFraming.scroll sel c delay msg

/-- A command without a selector leaves the selector bit 0 (30_encoding.md R55). -/
theorem selector_of_not_hasSelector {i : Instr} (h : i.op.hasSelector = false) : i.selector = false := by
  cases i with
  | pack888 | packRaw | unpack565 | unpack888 | init | release | setPix | setPixRaw | setAllRaw | fill | drawBitmap | present
  | loadFont => rfl
  | getPix | getPixRaw | getAllRaw | clear | setRot | glyphBits | drawLetter | scroll => cases h

/-- A command of fixed length has that many payload words (30_encoding.md R56). -/
theorem payload_length_of_fixedLen {i : Instr} {n : Nat} (h : i.op.fixedLen = some n) : i.payload.length = n := by
  cases i with
  | setAllRaw | drawBitmap | scroll => cases h
  | loadFont w v glyphs => cases h; simp [Instr.payload]
  | pack888 | packRaw | unpack565 | unpack888 | init | release | getPix | getPixRaw | getAllRaw | setPix | setPixRaw | fill | clear
  | setRot | present | glyphBits | drawLetter => cases h; rfl

/-- A header that meets the checks (a) to (d) of 30_encoding.md R58 passes them. -/
theorem decodeHeader_eq_ok {h : Word} {op : Op} (hopc : opcField h = op.opc) (hflags : reservedFlags h = 0)
    (hsel : selectorBit h = true → op.hasSelector = true) (hfixed : ∀ n, op.fixedLen = some n → lenField h = n) :
    decodeHeader h = .ok op := by
  have hbit : ¬(selectorBit h && !op.hasSelector) = true := by simpa using hsel
  have hop : opOfOpc (opcField h) = some op := hopc ▸ opOfOpc_opc op
  simp only [decodeHeader, hop, hflags, ne_eq, not_true_eq_false, if_false, if_neg hbit]
  cases hn : op.fixedLen with
  | none => rfl
  | some n => exact if_pos (hfixed n hn)

/-- The payload of a well-formed command decodes to it (30_encoding.md R53, R61). -/
theorem decodePayload_payload {i : Instr} (hwf : i.wf = true) : decodePayload i.op i.selector i.payload = .ok i := by
  have hrgb (cs : List Rgb) : readAll readRgb (cs.map rgbWord) = .ok cs :=
    (readAll_eq_ok_iff fun _ _ => readRgb_eq_ok_iff).2 rfl
  have hc16 (cs : List Color16) : readAll readC16 (cs.map c16Word) = .ok cs :=
    (readAll_eq_ok_iff fun _ _ => readC16_eq_ok_iff).2 rfl
  cases i with
  | init | release | clear | present => rfl
  | getAllRaw sel => simp [Instr.op, Instr.selector, Instr.payload, decodePayload, payload0]
  | pack888 | packRaw | unpack565 | unpack888 | getPix | getPixRaw | fill | setRot | glyphBits =>
    simp [Instr.op, Instr.selector, Instr.payload, decodePayload, payload1]
  | setPix | setPixRaw | drawLetter =>
    simp [Instr.op, Instr.selector, Instr.payload, decodePayload, payload2]
  | setAllRaw values => simp [Instr.op, Instr.payload, decodePayload, hc16]
  | drawBitmap w h pixels =>
    have hsize : pixels.length = w.toNat * h.toNat := of_decide_eq_true hwf
    simp [Instr.op, Instr.payload, decodePayload, bitmapPayload, hrgb, hsize]
  | loadFont w h glyphs =>
    have htable : glyphTable glyphs.toList = some glyphs := glyphTable_eq_some_iff.2 rfl
    simp [Instr.op, Instr.payload, decodePayload, fontPayload, htable]
  | scroll sel c delay msg => simp [Instr.op, Instr.selector, Instr.payload, decodePayload, scrollPayload]

/-- The packet of a well-formed command decodes to it. -/
theorem decode_header_payload {i : Instr} (hwf : i.wf = true) : decode i.header i.payload = .ok i := by
  obtain ⟨hopc, hflags, hsel, hlen⟩ := header_fields i hwf
  have hheader : decodeHeader i.header = .ok i.op := by
    refine decodeHeader_eq_ok hopc hflags (fun hbit => ?_) fun n hn => hlen.trans (payload_length_of_fixedLen hn)
    by_contra hno
    rw [hsel, selector_of_not_hasSelector (Bool.eq_false_of_not_eq_true hno)] at hbit
    cases hbit
  rw [decode, hheader, hsel, hlen, ← decodePayload_payload hwf]
  exact if_pos rfl

/-- Settles O2: the header reads back field by field, so framing takes exactly the payload, and each payload word reads back. -/
theorem decodeEncodeIsIdentity : Obligations.DecodeEncodeIsIdentity := by
  intro i hwf rest
  obtain ⟨-, -, -, hlen⟩ := header_fields i hwf
  exact ⟨takePacket_of_length hlen.symm, decode_header_payload hwf⟩

/-! ### From a packet that decodes back to its words -/

/-- The command keeps the selector bit it was read with (30_encoding.md R55). -/
theorem selector_of_decodePayload {op : Op} {sel : Bool} {p : List Word} {i : Instr} (hop : op.hasSelector = true)
    (hd : decodePayload op sel p = .ok i) : i.selector = sel := by
  cases op with
  | pack888 | packRaw | unpack565 | unpack888 | init | release | setPix | setPixRaw | setAllRaw | fill | drawBitmap | present
  | loadFont => cases hop
  | getAllRaw | clear =>
    obtain ⟨-, rfl⟩ := payload0_eq_ok_iff.1 hd
    simp [Instr.selector]
  | glyphBits =>
    obtain ⟨w, -, hd⟩ := payload1_eq_ok_iff.1 hd
    cases hd
    simp [Instr.selector]
  | getPix | getPixRaw | setRot =>
    obtain ⟨w, -, hd⟩ := payload1_eq_ok_iff.1 hd
    obtain ⟨a, -, hd⟩ := except_bind_eq_ok.1 hd
    cases hd
    simp [Instr.selector]
  | drawLetter =>
    obtain ⟨ch, w, -, hd⟩ := payload2_eq_ok_iff.1 hd
    obtain ⟨c, -, hd⟩ := except_bind_eq_ok.1 hd
    cases hd
    simp [Instr.selector]
  | scroll =>
    simp only [decodePayload, scrollPayload] at hd
    split at hd
    · obtain ⟨c, -, hd⟩ := except_bind_eq_ok.1 hd
      cases hd
      simp [Instr.selector]
    · cases hd

/-- A command that decodes has the selector bit of its header. -/
theorem selector_of_decode {h : Word} {p : List Word} {i : Instr} (hd : decode h p = .ok i) : i.selector = selectorBit h := by
  obtain ⟨op, hheader, hpayload⟩ := except_bind_eq_ok.1 hd
  obtain ⟨hheader', hlen, -, -⟩ := of_decode_eq_ok hd
  obtain rfl : op = i.op := Except.ok.inj (hheader.symm.trans hheader')
  rw [if_pos hlen] at hpayload
  obtain ⟨-, -, hsel, -⟩ := of_decodeHeader_eq_ok hheader
  cases hhas : i.op.hasSelector with
  | true => exact selector_of_decodePayload hhas hpayload
  | false =>
    have hbit : selectorBit h = false := Bool.eq_false_of_not_eq_true fun hbit => Bool.noConfusion ((hsel hbit).symm.trans hhas)
    rw [hbit, selector_of_not_hasSelector hhas]

/-- Settles O3: the payload is the command's own, and the header is put together from its fields, which are the command's. -/
theorem encodeDecodeIsIdentity : Obligations.EncodeDecodeIsIdentity := by
  intro h p i hd
  obtain ⟨hheader, hlen, rfl, hwf⟩ := of_decode_eq_ok hd
  obtain ⟨hopc, hflags, -, -⟩ := of_decodeHeader_eq_ok hheader
  refine ⟨hwf, ?_⟩
  rw [encode, Instr.header, selector_of_decode hd, hlen, headerWord_of_fields hopc hflags]

/-! ### The row of a header (30_encoding.md R57) -/

/-- A row's mask field by field: it asks for all of `OPC` and `FLG[7:1]`, for the selector where there is none, and for a fixed `LEN`. -/
theorem rowMask_eq_append (op : Op) :
    rowMask op = 0xFF#8 ++ 0x7F#7 ++ BitVec.ofBool (!op.hasSelector) ++
      (if op.fixedLen.isSome then 0xFFFF#16 else 0#16) := by
  cases op <;> decide

theorem rowMatch_eq_append (op : Op) :
    rowMatch op = op.opc ++ 0#7 ++ 0#1 ++ BitVec.ofNat 16 (op.fixedLen.getD 0) := by
  cases op <;> decide

/-- A header that passes the checks (a) to (d) matches its own row. -/
theorem and_rowMask_of_decodeHeader {h : Word} {op : Op} (hd : decodeHeader h = .ok op) : h &&& rowMask op = rowMatch op := by
  obtain ⟨hopc, hflags, hsel, hfixed⟩ := of_decodeHeader_eq_ok hd
  have hbit : BitVec.ofBool (selectorBit h) &&& BitVec.ofBool (!op.hasSelector) = 0#1 := by
    cases hs : selectorBit h with
    | false => simp
    | true => rw [hsel hs]; rfl
  have hlen : (BitVec.ofNat 16 (lenField h) &&& if op.fixedLen.isSome then 0xFFFF#16 else 0#16) =
      BitVec.ofNat 16 (op.fixedLen.getD 0) := by
    cases hn : op.fixedLen with
    | none => exact BitVec.and_zero
    | some n => rw [hfixed n hn]; exact BitVec.and_allOnes
  rw [← headerWord_of_fields hopc hflags, rowMask_eq_append, rowMatch_eq_append, headerWord, BitVec.and_append,
    BitVec.and_append, BitVec.and_append, hbit, hlen]
  congr 3
  exact BitVec.and_allOnes

/-- A header that matches a row has the row's `OPC`. -/
theorem opcField_of_and_rowMask {h : Word} {op : Op} (hm : h &&& rowMask op = rowMatch op) : opcField h = op.opc := by
  have hmask : opcField (rowMask op) = BitVec.allOnes 8 := by cases op <;> decide
  have hmatch : opcField (rowMatch op) = op.opc := by cases op <;> decide
  have hand : opcField (h &&& rowMask op) = opcField h &&& opcField (rowMask op) := BitVec.extractLsb'_and
  rw [← hmatch, ← hm, hand, hmask, BitVec.and_allOnes]

/-- Settles O4: a header that decodes passed the checks its row's mask makes, and any row it matches has its `OPC`. -/
theorem decodedHeaderMatchesOneRow : Obligations.DecodedHeaderMatchesOneRow := by
  intro h p i hd
  obtain ⟨hheader, -, -, -⟩ := of_decode_eq_ok hd
  obtain ⟨hopc, -, -, -⟩ := of_decodeHeader_eq_ok hheader
  refine ⟨and_rowMask_of_decodeHeader hheader, fun op hm => op_eq_of_opc ?_⟩
  rw [← opcField_of_and_rowMask hm, hopc]

/-! ### A packet that meets none of the conditions (a) to (g) decodes -/

theorem exists_readRgb {w : Word} (hw : w.toNat < 2 ^ 24) : ∃ c, readRgb w = .ok c :=
  ⟨_, if_pos ((field_eq_zero_iff _ _ _).2 (by omega))⟩

theorem exists_readC16 {w : Word} (hw : w.toNat < 2 ^ 16) : ∃ c, readC16 w = .ok c :=
  ⟨_, if_pos ((field_eq_zero_iff _ _ _).2 (by omega))⟩

theorem exists_readPair {w : Word} (hw : w.toNat < 2 ^ 16) : ∃ p, readPair w = .ok p :=
  ⟨_, if_pos ((field_eq_zero_iff _ _ _).2 (by omega))⟩

theorem exists_readRot {w : Word} (hw : w.toNat < 2 ^ 8) : ∃ o, readRot w = .ok o :=
  ⟨_, if_pos ((field_eq_zero_iff _ _ _).2 (by omega))⟩

/-- A list of words is read where each word is. -/
theorem exists_readAll {α : Type} {read : Word → Except Malformed α} {n : Nat} (hread : ∀ w, w.toNat < 2 ^ n → ∃ a, read w = .ok a)
    {ws : List Word} (hws : WordsBelow (fun _ => n) ws) : ∃ as, readAll read ws = .ok as := by
  induction ws with
  | nil => exact ⟨[], rfl⟩
  | cons w ws ih =>
    obtain ⟨hw, hws⟩ := wordsBelow_cons.1 hws
    obtain ⟨a, ha⟩ := hread w hw
    obtain ⟨as, has⟩ := ih hws
    refine ⟨a :: as, ?_⟩
    rw [readAll, ha, has]; rfl

/-- The two bytes of a `W_DIM` word as numbers (30_encoding.md R53). -/
theorem readPair_toNat {w : Word} {p : Byte × Byte} (hp : readPair w = .ok p) :
    p.1.toNat = w.toNat % 256 ∧ p.2.toNat = w.toNat / 256 % 256 := by
  have h1 := p.1.isLt
  have h2 := p.2.isLt
  rw [← readPair_eq_ok_iff.1 hp, pairWord_toNat]
  omega

/-- 190 words are read as a table of glyphs (30_encoding.md R61). -/
theorem exists_glyphTable {ws : List Word} (hws : ws.length = 2 * 95) : ∃ t, glyphTable (readGlyphs ws) = some t := by
  have hlen : (readGlyphs ws).length = 95 := by
    have := glyphWords_length (readGlyphs ws)
    rw [glyphWords_readGlyphs hws] at this
    omega
  exact ⟨_, dif_pos hlen⟩

/-- A payload of its row's length, with no reserved bit, with the pixels its `W_DIM` word asks for or the two words a `SCROLL` starts
with, is the payload of a command. -/
theorem exists_decodePayload {op : Op} (sel : Bool) {p : List Word} (hfixed : ∀ n, op.fixedLen = some n → p.length = n)
    (hbits : WordsBelow (usedBits op.opc.toNat) p)
    (hbitmap : op = .drawBitmap → ∃ dim ws, p = dim :: ws ∧ ws.length = dim.toNat % 256 * (dim.toNat / 256 % 256))
    (hscroll : op = .scroll → 2 ≤ p.length) : ∃ i, decodePayload op sel p = .ok i := by
  cases op with
  | init | release | getAllRaw | clear | present =>
    obtain rfl := List.length_eq_zero_iff.1 (hfixed 0 rfl)
    exact ⟨_, rfl⟩
  | glyphBits =>
    obtain ⟨ch, rfl⟩ := List.length_eq_one_iff.1 (hfixed 1 rfl)
    exact ⟨_, rfl⟩
  | pack888 | packRaw =>
    obtain ⟨w, rfl⟩ := List.length_eq_one_iff.1 (hfixed 1 rfl)
    obtain ⟨hw, -⟩ := wordsBelow_cons.1 hbits
    obtain ⟨c, hc⟩ := exists_readRgb hw
    simp [decodePayload, payload1, hc]
  | unpack565 | unpack888 | fill =>
    obtain ⟨w, rfl⟩ := List.length_eq_one_iff.1 (hfixed 1 rfl)
    obtain ⟨hw, -⟩ := wordsBelow_cons.1 hbits
    obtain ⟨c, hc⟩ := exists_readC16 hw
    simp [decodePayload, payload1, hc]
  | getPix | getPixRaw =>
    obtain ⟨w, rfl⟩ := List.length_eq_one_iff.1 (hfixed 1 rfl)
    obtain ⟨hw, -⟩ := wordsBelow_cons.1 hbits
    obtain ⟨xy, hxy⟩ := exists_readPair hw
    simp [decodePayload, payload1, hxy]
  | setRot =>
    obtain ⟨w, rfl⟩ := List.length_eq_one_iff.1 (hfixed 1 rfl)
    obtain ⟨hw, -⟩ := wordsBelow_cons.1 hbits
    obtain ⟨o, ho⟩ := exists_readRot hw
    simp [decodePayload, payload1, ho]
  | setPix | setPixRaw =>
    obtain ⟨w, v, rfl⟩ := List.length_eq_two.1 (hfixed 2 rfl)
    obtain ⟨hw, hv⟩ := wordsBelow_cons.1 hbits
    obtain ⟨xy, hxy⟩ := exists_readPair hw
    obtain ⟨c, hc⟩ := exists_readRgb (wordsBelow_cons.1 hv).1
    simp [decodePayload, payload2, hxy, hc]
  | drawLetter =>
    obtain ⟨ch, w, rfl⟩ := List.length_eq_two.1 (hfixed 2 rfl)
    obtain ⟨-, hw⟩ := wordsBelow_cons.1 hbits
    obtain ⟨c, hc⟩ := exists_readC16 (wordsBelow_cons.1 hw).1
    simp [decodePayload, payload2, hc]
  | setAllRaw =>
    obtain ⟨cs, hcs⟩ := exists_readAll (fun _ => exists_readC16) hbits
    exact ⟨_, except_bind_eq_ok.2 ⟨cs, hcs, rfl⟩⟩
  | drawBitmap =>
    obtain ⟨dim, ws, rfl, hsize⟩ := hbitmap rfl
    obtain ⟨hdim, hws⟩ := wordsBelow_cons.1 hbits
    obtain ⟨d, hd⟩ := exists_readPair hdim
    obtain ⟨pixels, hpixels⟩ := exists_readAll (fun _ => exists_readRgb) hws
    obtain ⟨hw, hh⟩ := readPair_toNat hd
    rw [← hw, ← hh] at hsize
    exact ⟨_, except_bind_eq_ok.2 ⟨d, hd, except_bind_eq_ok.2 ⟨pixels, hpixels, if_pos hsize⟩⟩⟩
  | loadFont =>
    obtain ⟨dim, ws, rfl⟩ := List.exists_cons_of_length_eq_add_one (hfixed 191 rfl)
    obtain ⟨hdim, -⟩ := wordsBelow_cons.1 hbits
    obtain ⟨d, hd⟩ := exists_readPair hdim
    obtain ⟨glyphs, hglyphs⟩ := exists_glyphTable (Nat.succ.inj (hfixed 191 rfl))
    exact ⟨.loadFont d.1 d.2 glyphs, except_bind_eq_ok.2 ⟨d, hd, by rw [hglyphs]⟩⟩
  | scroll =>
    match p, hscroll rfl with
    | w :: delay :: msg, _ =>
      obtain ⟨hw, -⟩ := wordsBelow_cons.1 hbits
      obtain ⟨c, hc⟩ := exists_readC16 hw
      exact ⟨_, except_bind_eq_ok.2 ⟨c, hc, rfl⟩⟩

/-- An `OPC` in the table is that of a command. -/
theorem exists_op_of_mem_opcodeRows {row : Nat × Bool × Option Nat} (hrow : row ∈ opcodeRows) : ∃ op : Op, row = opcodeRow op := by
  have hrows : opcodeRows = allOps.map opcodeRow := rfl
  rw [hrows] at hrow
  obtain ⟨op, -, rfl⟩ := List.mem_map.1 hrow
  exact ⟨op, rfl⟩

/-- A framed packet that meets none of the conditions (a) to (g) is a command. -/
theorem exists_decode_of_not_malformedPacket {h : Word} {p : List Word} (hlen : p.length = lenField h)
    (hm : ¬ malformedPacket h p) : ∃ i, decode h p = .ok i := by
  unfold malformedPacket at hm
  rw [← opcField_toNat, ← reservedFlags_toNat, ← lenField_eq] at hm
  simp only [not_or] at hm
  obtain ⟨hopc, hflags, hsel, hfixed, hbitmap, hscroll, hbits⟩ := hm
  push Not at hopc hflags hsel hfixed hbitmap hscroll hbits
  obtain ⟨row, hrow, hrowOpc⟩ := hopc
  obtain ⟨op, rfl⟩ := exists_op_of_mem_opcodeRows hrow
  have hop : opcField h = op.opc := (BitVec.eq_of_toNat_eq hrowOpc).symm
  rw [hop] at hsel hfixed hbitmap hscroll hbits
  have hheader : decodeHeader h = .ok op := by
    refine decodeHeader_eq_ok hop (BitVec.eq_of_toNat_eq hflags) (fun hbit => ?_) fun n hn => ?_
    · rw [selectorBit_eq, decide_eq_true_eq] at hbit
      exact Bool.eq_true_of_not_eq_false (hsel hbit _ hrow rfl)
    · exact (hfixed _ hrow rfl n hn).symm
  obtain ⟨-, -, -, hfixedLen⟩ := of_decodeHeader_eq_ok hheader
  have hpixels : op = .drawBitmap → ∃ dim ws, p = dim :: ws ∧ ws.length = dim.toNat % 256 * (dim.toNat / 256 % 256) := by
    rintro rfl
    obtain ⟨hpos, hsize⟩ := hbitmap rfl
    obtain ⟨dim, ws, rfl⟩ := List.exists_cons_of_ne_nil (List.ne_nil_of_length_pos (hlen ▸ Nat.pos_of_ne_zero hpos))
    refine ⟨dim, ws, rfl, ?_⟩
    rw [← hsize dim ws rfl, ← hlen]; rfl
  have hlong : op = .scroll → 2 ≤ p.length := by
    rintro rfl
    exact hlen ▸ hscroll rfl
  obtain ⟨i, hi⟩ := exists_decodePayload (selectorBit h) (fun n hn => hlen.trans (hfixedLen n hn)) hbits hpixels hlong
  exact ⟨i, except_bind_eq_ok.2 ⟨op, hheader, (if_pos hlen).trans hi⟩⟩

/-- Settles O5: a malformed packet meets a check that fails, and one that is not malformed passes them all. -/
theorem refusedExactlyWhenMalformed : Obligations.RefusedExactlyWhenMalformed := by
  intro h p hlen
  refine ⟨fun ⟨e, he⟩ => ?_, decode_of_malformedPacket⟩
  by_contra hm
  obtain ⟨i, hi⟩ := exists_decode_of_not_malformedPacket (hlen.trans (lenField_eq h).symm) hm
  cases he.symm.trans hi

end Sys2Proof
end

section
/-! PROOFS. The rules about every command, from `exec_cases`: a command raises a status, or answers `OK` after one of the writes of
`Wrote`, or is a `SCROLL` that starts. Only idempotence needs the values written, and so each command's own meaning. -/

namespace Sys2Proof.Machine

open Sys2Proof.Safety

/-! ### All or nothing -/

/-- Settles O50: each command ends through `finish`, and `SCROLL` through its own checks. -/
theorem everyCommandCompletes : Obligations.EveryCommandCompletes := by
  intro i s
  cases i with
  | scroll sel c delay msg =>
    simp only [exec, execScroll]
    cases startScroll sel c delay msg s with
    | ok t => exact ⟨t, rfl⟩
    | error st => exact ⟨_, rfl⟩
  | pack888 | packRaw | unpack565 | unpack888 => exact ⟨_, rfl⟩
  | init | release | getPix | getPixRaw | getAllRaw | setPix | setPixRaw | setAllRaw | fill | clear | drawBitmap | setRot | present
  | glyphBits | loadFont | drawLetter => exact finish_answers _ _ _

theorem resultLength_le (op : Op) : resultLength op ≤ 64 := by
  cases op <;> decide

/-- Settles O49: the three ends of `exec_cases`, with the response header in the claims' arithmetic. -/
theorem everyCommandIsAllOrNothing : Obligations.EveryCommandIsAllOrNothing := by
  intro i s t he
  cases exec_cases he with
  | raised st hmay => exact .inr (.inl ⟨st, hmay, raiseStatus_eq i.op st s⟩)
  | answered ws hlen hw =>
    have hlt : ws.length < 65536 := by
      have := resultLength_le i.op
      omega
    refine .inl ⟨ws, hlen, ?_⟩
    rw [respond_rsp, hw.rsp_eq, responseHeader_eq i.op .ok hlt]; rfl
  | started hi => subst hi; exact .inr (.inr ⟨rfl, rfl, _, rfl, rfl⟩)

/-! ### What a command leaves unchanged -/

/-- No command touches the command stream, the inputs or the levels. -/
theorem exec_keeps_outside {i : Instr} {s t : State} (he : exec i s = .next t) :
    t.cmd = s.cmd ∧ t.inputs = s.inputs ∧ t.cancel = s.cancel ∧ t.alloc = s.alloc := by
  cases exec_cases he with
  | raised => exact ⟨rfl, rfl, rfl, rfl⟩
  | answered ws hlen hw => cases hw <;> exact ⟨rfl, rfl, rfl, rfl⟩
  | started => exact ⟨rfl, rfl, rfl, rfl⟩

/-- Where life cycle and fonts are the same, every element is. -/
theorem sameElem_of_eq {s t : State} (hlife : t.life = s.life) (hglyphs : t.dfontGlyphs = s.dfontGlyphs)
    (hufont : t.ufont = s.ufont) (e : Elem) : sameElem s t e := by
  cases e <;> simp only [sameElem, State.dstate, State.display, State.dfont, State.scroll, hlife, hglyphs, hufont]

/-- A response is no element of the block. -/
theorem sameElem_respond {s u : State} {opc : Byte} {st : Status} {ws : List Word} {e : Elem} (h : sameElem s u e) :
    sameElem s (respond opc st ws u) e := by
  cases e <;> exact h

/-- Where the Display is written, its elements are the same where the two Displays agree. -/
theorem sameElem_setDisplay {i : Instr} {s : State} {d d' : Display} (hl : s.life = .active d)
    (hback : writesElem i .back = false → d'.back = d.back) (hfront : writesElem i .front = false → d'.front = d.front)
    (hrot : writesElem i .rot = false → d'.rot = d.rot) (hscroll : writesElem i .scroll = false → d'.scroll = d.scroll)
    {e : Elem} (he : writesElem i e = false) : sameElem s (setDisplay s d') e := by
  cases e with
  | dfont | ufont => rfl
  | dstate => simp only [sameElem, State.dstate, setDisplay_life, hl]
  | back => simp only [sameElem, State.display, setDisplay_life, hl, Option.map_some, hback he]
  | front => simp only [sameElem, State.display, setDisplay_life, hl, Option.map_some, hfront he]
  | rot => simp only [sameElem, State.display, setDisplay_life, hl, Option.map_some, hrot he]
  | scroll => simp only [sameElem, State.scroll, setDisplay_life, hl, hscroll he]

/-- What a command that answers `OK` writes is among the elements it lists (10_state.md R11 to R17). -/
theorem Wrote.sameElem {i : Instr} {s u : State} (hw : Wrote i s u) {e : Elem} (he : writesElem i e = false) : sameElem s u e := by
  cases hw with
  | nothing => exact sameElem_of_eq rfl rfl rfl e
  | init | release =>
    -- the two that make the Display or take it away list all but the fonts (10_state.md R24)
    cases e with
    | dfont | ufont => rfl
    | dstate | back | front | rot | scroll => cases he
  | @back _ _ d b hl _ hback _ =>
    exact sameElem_setDisplay (d' := { d with back := b }) hl (fun h => Bool.noConfusion (hback.symm.trans h))
      (fun _ => rfl) (fun _ => rfl) (fun _ => rfl) he
  | @clear r _ d hl =>
    refine sameElem_setDisplay (d' := presentIf r { d with back := bufFill 0 }) hl (fun h => Bool.noConfusion h)
      (fun h => ?_) (fun _ => presentIf_rot _ _) (fun _ => presentIf_scroll _ _) he
    obtain rfl : r = false := h
    rfl
  | @setRot r _ _ d rot hl =>
    refine sameElem_setDisplay (d' := presentIf r { d with rot := rot }) hl (fun _ => presentIf_back _ _)
      (fun h => ?_) (fun h => Bool.noConfusion h) (fun _ => presentIf_scroll _ _) he
    obtain rfl : r = false := h
    rfl
  | @present _ d hl =>
    exact sameElem_setDisplay (d' := doPresent d) hl (fun _ => rfl) (fun h => Bool.noConfusion h) (fun _ => rfl) (fun _ => rfl) he
  | font =>
    cases e with
    | ufont => cases he
    | dstate | back | front | rot | dfont | scroll => rfl

/-- Settles O51: a raised status writes nothing, a write keeps to its command's list, and a `SCROLL` that starts writes `scroll`. -/
theorem onlyTheListedCommandsWriteAnElement : Obligations.OnlyTheListedCommandsWriteAnElement := by
  intro i s t hexec
  refine ⟨fun e he => ?_, exec_keeps_outside hexec⟩
  cases exec_cases hexec with
  | raised => exact sameElem_of_eq rfl rfl rfl e
  | answered ws hlen hw => exact sameElem_respond (hw.sameElem he)
  | @started _ _ _ _ d f hi hl =>
    subst hi
    refine sameElem_setDisplay hl ?_ ?_ ?_ (fun h => Bool.noConfusion h) he <;> exact fun _ => rfl

/-! ### Reads -/

/-- 20_memory.md R39 lists no command both as a read and as a write. -/
theorem not_idempotentWrite_of_readsOnly {op : Op} (h : readsOnly op = true) : idempotentWrite op = false := by
  cases op <;> simp_all [readsOnly, idempotentWrite]

/-- A read that answers `OK` has written nothing. -/
theorem Wrote.eq_of_readsOnly {i : Instr} {s u : State} (hw : Wrote i s u) (hr : readsOnly i.op = true) : u = s := by
  cases hw with
  | nothing => rfl
  | back _ _ hi => exact Bool.noConfusion (hi.symm.trans (not_idempotentWrite_of_readsOnly hr))
  | init | release | clear | setRot | present | font => cases hr

/-- Settles O52: a raised status writes nothing, and neither does a read that answers `OK`. -/
theorem readsHaveNoSideEffect : Obligations.ReadsHaveNoSideEffect := by
  intro i s t hr he
  cases exec_cases he with
  | raised => rfl
  | answered ws hlen hw => obtain rfl := hw.eq_of_readsOnly hr; rfl
  | started hi => subst hi; cases hr

/-! ### The driver's view -/

/-- What one of two whole images gives is a mixture of the two (20_memory.md R42). -/
theorem tornImage_of_whole {old new img : Buffer} (h : img = old ∨ img = new) : tornImage old new img := by
  rcases h with rfl | rfl
  · exact fun _ => .inl rfl
  · exact fun _ => .inr rfl

/-- A mixture of an image with itself is that image. -/
theorem eq_of_tornImage_self {old img : Buffer} (h : tornImage old old img) : img = old :=
  buffer_ext fun i => or_self_iff.1 (h i)

/-- The snapshot `cell` shows all that `command` shows (20_memory.md R42). -/
theorem driverMaySee_cell_of_command {s t : State} {img : Buffer} : driverMaySee .command s t img → driverMaySee .cell s t img := by
  unfold driverMaySee
  cases visibleFront s with
  | none => cases visibleFront t <;> exact id
  | some old =>
    cases visibleFront t with
    | none => exact id
    | some new => exact tornImage_of_whole

/-- Over a step with the same `front` at both ends the driver sees that image, with either snapshot. -/
theorem eq_of_driverMaySee {snap : Snapshot} {s t : State} {front img : Buffer} (hs : visibleFront s = some front)
    (ht : visibleFront t = some front) (h : driverMaySee snap s t img) : img = front := by
  simp only [driverMaySee, hs, ht] at h
  cases snap with
  | command => exact or_self_iff.1 h
  | cell => exact eq_of_tornImage_self h

/-- Settles O56: a whole image is a mixture; a command not listed as a writer of `front` has the same `front` at both ends. -/
theorem driverSeesFrontUnchangedOutsidePresents : Obligations.DriverSeesFrontUnchangedOutsidePresents := by
  refine ⟨fun s t img => driverMaySee_cell_of_command, fun snap i s t d img hl he hfront h => ?_⟩
  have hs : visibleFront s = some d.front := by rw [visibleFront, display_of_active hl]; rfl
  have hsame : visibleFront t = visibleFront s := (onlyTheListedCommandsWriteAnElement i s t he).1 .front hfront
  exact eq_of_driverMaySee hs (hsame.trans hs) h

/-! ### Writes done twice -/

/-- A command that writes the Display `k d a` for what its check `x` gives leaves every element as the first did, if a second write
finds the Display as it would leave it. -/
theorem eq_of_write_twice {α : Type} {i : Instr} {s t u : State} {x : Display → Except Status α} {k : Display → α → Display}
    (hs : exec i s = finish i.op s (needActive s >>= fun d => x d >>= fun a => .ok (setDisplay s (k d a), [])))
    (ht : exec i t = finish i.op t (needActive t >>= fun d => x d >>= fun a => .ok (setDisplay t (k d a), [])))
    (hk : ∀ d a b, x d = .ok a → x (k d a) = .ok b → k (k d a) b = k d a)
    (hst : exec i s = .next t) (htu : exec i t = .next u) : u = { t with rsp := u.rsp } := by
  rw [ht] at htu
  rw [hs] at hst
  obtain rfl | ⟨d, hd, htu⟩ := finish_needActive htu
  · rfl
  cases hb : x d with
  | error st => rw [hb] at htu; cases htu; rfl
  | ok b =>
    rw [hb] at htu
    cases finish_ok_next htu
    suffices hlife : t.life = .active (k d b) by rw [setDisplay, ← hlife]; rfl
    rcases needActive_cases s with ⟨c, hc, e⟩ | ⟨hno, e⟩ <;> rw [e] at hst
    · cases ha : x c with
      | error st =>
        rw [except_ok_bind, ha] at hst
        cases hst
        cases hc.symm.trans hd
        cases hb.symm.trans ha
      | ok a =>
        rw [except_ok_bind, ha] at hst
        cases hst
        obtain rfl : k c a = d := Life.active.inj hd
        exact congrArg Life.active (hk c a b ha hb).symm
    · cases hst
      exact absurd (dstate_eq_active_iff.2 ⟨d, hd⟩) hno

/-- A command that writes `back` alone, with what `x` makes of it. -/
theorem eq_of_write_back_twice {i : Instr} {s t u : State} {x : Buffer → Except Status Buffer}
    (hs : exec i s = finish i.op s
      (needActive s >>= fun d => x d.back >>= fun b => .ok (setDisplay s { d with back := b }, [])))
    (ht : exec i t = finish i.op t
      (needActive t >>= fun d => x d.back >>= fun b => .ok (setDisplay t { d with back := b }, [])))
    (hx : ∀ back a, x back = .ok a → x a = .ok a)
    (hst : exec i s = .next t) (htu : exec i t = .next u) : u = { t with rsp := u.rsp } := by
  refine eq_of_write_twice (x := fun d => x d.back) (k := fun d b => { d with back := b }) hs ht (fun d a b ha hb => ?_) hst htu
  have hab : x a = .ok b := hb
  rw [hx d.back a ha] at hab
  cases hab
  rfl

/-- The same cell written twice. -/
theorem bufSet_twice {x y : Byte} {c : Color16} {back a : Buffer} (h : bufSet back x y c = .ok a) : bufSet a x y c = .ok a := by
  rcases bufIndex_cases x y with ⟨i, -, -, -, hi⟩ | ⟨hgt, -⟩
  · rw [bufSet_of_bufIndex_ok hi] at h ⊢
    cases h
    rw [Vector.set_set]
  · rw [bufSet_of_gt hgt] at h
    cases h

/-- The same glyph drawn twice. -/
theorem drawGlyph_twice (f : Font) (g : GlyphWord) (c : Color16) (back : Buffer) :
    drawGlyph f g c (drawGlyph f g c back) = drawGlyph f g c back := by
  refine buffer_ext fun i => ?_
  simp only [Fin.getElem_fin, drawGlyph_getElem]
  split_ifs <;> rfl

/-- The same letter drawn twice. -/
theorem letterBuffer_twice {f : Font} {ch : Word} {c : Color16} {back a : Buffer} (h : letterBuffer f ch c back = .ok a) :
    letterBuffer f ch c a = .ok a := by
  unfold letterBuffer at h ⊢
  cases hk : letterIndex ch with
  | none => rw [hk] at h; exact h
  | some k =>
    rw [hk] at h
    by_cases hsize : 8 < f.w.toNat ∨ 8 < f.h.toNat
    · simp only [if_pos hsize] at h
      cases h
    · simp only [if_neg hsize, Except.ok.injEq] at h ⊢
      rw [← h, drawGlyph_twice]

/-- A font is selected from what no command but `LOADFONT` writes. -/
theorem selectFont_congr {s t : State} (hglyphs : t.dfont = s.dfont) (hufont : t.ufont = s.ufont) (sel : FontSel) :
    selectFont t sel = selectFont s sel := by
  cases sel with
  | default => exact congrArg Except.ok hglyphs
  | user => simp only [selectFont, hufont]

/-- `DRAWLETTER` as a write of `back` by the font selected in a state `s'` with the same fonts. -/
theorem exec_drawLetter_eq {s s' : State} {sel : FontSel} (hf : selectFont s sel = selectFont s' sel) (ch : Word) (c : Color16) :
    exec (.drawLetter sel ch c) s = finish .drawLetter s (needActive s >>= fun d =>
      (selectFont s' sel >>= fun f => letterBuffer f ch c d.back) >>= fun b => .ok (setDisplay s { d with back := b }, [])) := by
  rw [exec, execDrawLetter, hf]
  cases selectFont s' sel <;> rfl

/-- Settles O53: the second write finds the Display, or the user font, as it would leave it. -/
theorem listedWritesAreIdempotent : Obligations.ListedWritesAreIdempotent := by
  intro i s t u hi hst htu
  cases i with
  | setPix x y r g b => exact eq_of_write_back_twice rfl rfl (fun _ _ => bufSet_twice) hst htu
  | setPixRaw x y r5 g6 b5 => exact eq_of_write_back_twice rfl rfl (fun _ _ => bufSet_twice) hst htu
  | setAllRaw values => exact eq_of_write_back_twice (x := fun _ => bufWriteAll values) rfl rfl (fun _ _ h => h) hst htu
  | fill c => exact eq_of_write_back_twice (x := fun _ => .ok (bufFill c)) rfl rfl (fun _ _ h => h) hst htu
  | drawBitmap w h pixels =>
    exact eq_of_write_back_twice (x := fun _ => bitmapBuffer w h pixels) rfl rfl (fun _ _ h => h) hst htu
  | drawLetter sel ch c =>
    obtain ⟨hkeeps, -⟩ := onlyTheListedCommandsWriteAnElement _ s t hst
    have hf : selectFont t sel = selectFont s sel := selectFont_congr (hkeeps .dfont rfl) (hkeeps .ufont rfl) sel
    refine eq_of_write_back_twice (x := fun back => selectFont s sel >>= fun f => letterBuffer f ch c back)
      (exec_drawLetter_eq rfl ch c) (exec_drawLetter_eq hf ch c) (fun back a h => ?_) hst htu
    obtain ⟨f, hf, h⟩ := except_bind_eq_ok.1 h
    rw [hf]
    exact letterBuffer_twice h
  | clear redraw =>
    refine eq_of_write_twice (x := fun _ => .ok ()) (k := fun d _ => presentIf redraw { d with back := bufFill 0 }) rfl rfl
      (fun _ _ _ _ _ => ?_) hst htu
    cases redraw <;> rfl
  | setRot redraw o =>
    refine eq_of_write_twice (x := fun _ => orientationOf o) (k := fun d rot => presentIf redraw { d with rot := rot }) rfl rfl
      (fun _ a b ha hb => ?_) hst htu
    cases ha.symm.trans hb
    cases redraw <;> rfl
  | present => exact eq_of_write_twice (x := fun _ => .ok ()) (k := fun d _ => doPresent d) rfl rfl (fun _ _ _ _ _ => rfl) hst htu
  | loadFont w h glyphs =>
    rcases Nat.lt_or_ge 64 (w.toNat * h.toNat) with hlarge | hfits
    · rw [exec_loadFont_of_gt hlarge] at htu
      cases htu
      rfl
    · rw [exec_loadFont_of_le hfits] at hst htu
      cases hst
      cases htu
      rfl
  | pack888 | packRaw | unpack565 | unpack888 | init | release | getPix | getPixRaw | getAllRaw | glyphBits | scroll => cases hi

/-! ### Two commands that end alike -/

/-- Settles O54: both write `back` as `bufFill 0` after the life-cycle check, and neither presents. -/
theorem clearWithoutRedrawIsFillZero : Obligations.ClearWithoutRedrawIsFillZero := by
  intro s t u ht hu
  rcases needActive_cases s with ⟨d, hl, -⟩ | ⟨hno, -⟩
  · rw [exec_of_active (i := .clear false) rfl hl] at ht
    rw [exec_of_active (i := .fill 0) rfl hl] at hu
    cases ht
    cases hu
    rfl
  · have hclear := answersOnly_notActive_of_needsDisplay (i := .clear false) rfl hno
    have hfill := answersOnly_notActive_of_needsDisplay (i := .fill 0) rfl hno
    cases hclear.symm.trans ht
    cases hfill.symm.trans hu
    rfl

/-- Settles O55: `RELEASE` leaves nothing of the Display in the state, so all that comes later is the same. -/
theorem noPixelSurvivesRelease : Obligations.NoPixelSurvivesRelease := by
  intro s d d' t t' u u' ht ht' hu hu'
  have hsame : t = t' := by
    rw [exec_release_of_active rfl] at ht ht'
    cases ht
    cases ht'
    rfl
  subst hsame
  cases hu.symm.trans hu'
  exact ⟨rfl, rfl⟩

end Sys2Proof.Machine
end

section
/-! PROOFS. The round trips of the colour converter (40_colorcodec.md section 3). Under both readings of the expansion table a channel
expanded to 8 bits keeps the component in its upper bits, which is what packing takes. -/

namespace Sys2Proof.Machine

open Sys2Proof.Safety

/-- A bit-replicated channel as a number: the component, then its upper bits again (93_implementation_defined.md U2). -/
theorem expandChannel_replicate_toNat {width : Nat} {v : Byte} (hlow : 4 ≤ width) (hhigh : width ≤ 8) (hv : v.toNat < 2 ^ width) :
    (expandChannel .replicate width v).toNat = v.toNat * 2 ^ (8 - width) + v.toNat / 2 ^ (2 * width - 8) := by
  have htop : v.toNat / 2 ^ (2 * width - 8) < 2 ^ (8 - width) := by
    rw [Nat.div_lt_iff_lt_mul (by positivity), ← pow_add]
    exact hv.trans_le (Nat.pow_le_pow_right (by decide) (by omega))
  have hbyte : v.toNat * 2 ^ (8 - width) < 2 ^ 8 :=
    calc v.toNat * 2 ^ (8 - width) < 2 ^ width * 2 ^ (8 - width) := Nat.mul_lt_mul_of_pos_right hv (by positivity)
      _ = 2 ^ 8 := by rw [← pow_add]; congr 1; omega
  rw [expandChannel, BitVec.toNat_or, BitVec.toNat_shiftLeft, BitVec.toNat_ushiftRight, Nat.shiftRight_eq_div_pow,
    Nat.shiftLeft_eq, Nat.mod_eq_of_lt hbyte, ← Nat.shiftLeft_eq, Nat.shiftLeft_add_eq_or_of_lt htop]

/-- The upper 5 bits of an expanded 5-bit component are the component. -/
theorem expandChannel_five_div (e : Expand) {v : Byte} (hv : v.toNat ≤ 31) : (expandChannel e 5 v).toNat / 8 = v.toNat := by
  cases e with
  | formula => rw [expandChannel_formula_toNat hv]; omega
  | replicate => rw [expandChannel_replicate_toNat (by decide) (by decide) (by omega)]; omega

/-- The upper 6 bits of an expanded 6-bit component are the component. -/
theorem expandChannel_six_div (e : Expand) {v : Byte} (hv : v.toNat ≤ 63) : (expandChannel e 6 v).toNat / 4 = v.toNat := by
  cases e with
  | formula => rw [expandChannel_formula_toNat hv]; omega
  | replicate => rw [expandChannel_replicate_toNat (by decide) (by decide) (by omega)]; omega

/-- The upper bits of an expanded colour are its fields. -/
theorem expand888With_div (e : Expand) (c : Color16) :
    (expand888With e c).r.toNat / 8 = c.toNat / 2048 ∧ (expand888With e c).g.toNat / 4 = c.toNat / 32 % 64 ∧
    (expand888With e c).b.toNat / 8 = c.toNat % 32 := by
  obtain ⟨hr, hg, hb⟩ := unpack565_toNat c
  obtain ⟨hr', hg', hb'⟩ := unpack565_le c
  rw [← hr, ← hg, ← hb]
  exact ⟨expandChannel_five_div e hr', expandChannel_six_div e hg', expandChannel_five_div e hb'⟩

/-- Settles O16: packing keeps a channel's upper bits and expanding keeps them again, so the two differ in the lower bits alone. -/
theorem roundTripLosesAtMostTheQuantum : Obligations.RoundTripLosesAtMostTheQuantum := by
  intro e r g b
  dsimp only
  have := r.isLt
  have := g.isLt
  have := b.isLt
  obtain ⟨hr, hg, hb⟩ := expand888With_div e (pack565 r g b)
  rw [pack565_toNat, packedNat] at hr hg hb
  omega

/-- Settles O17: packing takes the upper bits of each channel, which are the colour's fields. -/
theorem packOfExpandIsIdentity : Obligations.PackOfExpandIsIdentity := by
  intro e c
  obtain ⟨hr, hg, hb⟩ := expand888With_div e c
  apply BitVec.eq_of_toNat_eq
  rw [pack565_toNat, packedNat, hr, hg, hb]
  omega

end Sys2Proof.Machine
end

section
/-! PROOFS. The group laws of the six transforms (42_rotation.md section 3), by the source cells of R102: one transform after another
reads the source cell of a source cell. -/

namespace Sys2Proof.Machine

/-- A buffer reordered twice is reordered once where the source cells say so. -/
theorem rotApply_rotApply {o o' o'' : Orientation}
    (h : ∀ u v, rotSource o' (colOf (rotSource o u v)) (rowOf (rotSource o u v)) = rotSource o'' u v) (src : Buffer) :
    rotApply o (rotApply o' src) = rotApply o'' src :=
  buffer_ext fun i => by simp [h]

theorem rotApply_rot90_rot90 (src : Buffer) : rotApply .rot90 (rotApply .rot90 src) = rotApply .rot180 src :=
  rotApply_rotApply (fun u v => by simp [rotSource]) src

theorem rotApply_flipV_flipH (src : Buffer) : rotApply .flipV (rotApply .flipH src) = rotApply .rot180 src :=
  rotApply_rotApply (fun u v => by simp [rotSource]) src

/-- Two transforms that undo each other. -/
theorem rotApply_cancel {o o' : Orientation}
    (h : ∀ u v, rotSource o' (colOf (rotSource o u v)) (rowOf (rotSource o u v)) = cellOf u v) (src : Buffer) :
    rotApply o (rotApply o' src) = src :=
  (rotApply_rotApply (o'' := .identity) h src).trans (rotApply_identity src)

theorem rotApply_rot180_rot180 (src : Buffer) : rotApply .rot180 (rotApply .rot180 src) = src :=
  rotApply_cancel (fun u v => by simp [rotSource]) src

/-- Settles O36: each law on the source cells; four quarter turns are two half turns. -/
theorem rotationsComposeAsStated : Obligations.RotationsComposeAsStated := by
  intro src
  refine ⟨?_, rotApply_cancel (fun u v => by simp [rotSource]) src, rotApply_cancel (fun u v => by simp [rotSource]) src,
    rotApply_rot90_rot90 src, rotApply_cancel (fun u v => by simp [rotSource]) src, rotApply_flipV_flipH src⟩
  rw [rotApply_rot90_rot90, rotApply_rot90_rot90, rotApply_rot180_rot180]

/-! ### The transpose -/

/-- A buffer dark but for cell 8, column 0 of row 1. -/
def oneLit : Buffer := (bufFill 0).set 8 1

/-- Cell 1 of a transposed `oneLit` is the lit one, and no orientation reads it there. -/
theorem rotApply_oneLit (o : Orientation) : (rotApply o oneLit)[1] = 0 := by
  cases o <;> decide

/-- Quarter turn, then flip: the destination column `y`, row `x` reads the source column `x`, row `y`. -/
theorem rotApply_flipH_rot90 (src : Buffer) (x y : Fin 8) :
    (rotApply .flipH (rotApply .rot90 src))[cellOf y x] = src[cellOf x y] := by
  simp [rotSource]

/-- Settles O37: `oneLit` is transposed by no orientation; the quarter turn and the flip together exchange column and row. -/
theorem noOrientationTransposes : Obligations.NoOrientationTransposes := by
  refine ⟨fun o => ⟨oneLit, 0, 1, fun h => ?_⟩, fun src x y => ?_⟩
  · have hlit : oneLit[8]? = some 1 := by decide
    have hdst : (rotApply o oneLit)[1]? = some (rotApply o oneLit)[1] := Vector.getElem?_eq_getElem _
    rw [rotApply_oneLit] at hdst
    cases hdst.symm.trans (h.trans hlit)
  · have hdst : (rotApply .flipH (rotApply .rot90 src))[(cellOf y x).val]? =
        some (rotApply .flipH (rotApply .rot90 src))[cellOf y x] := Vector.getElem?_eq_getElem _
    have hsrc : src[(cellOf x y).val]? = some src[cellOf x y] := Vector.getElem?_eq_getElem _
    exact hdst.trans ((congrArg some (rotApply_flipH_rot90 src x y)).trans hsrc.symm)

end Sys2Proof.Machine
end

section
/-! PROOFS. Letters and scrolling (44_glyph.md): `DRAWLETTER`, the glyph bits that nothing draws, the start of a `SCROLL`, one frame, and
by induction on the windows left all of them. -/

namespace Sys2Proof.Machine

open Sys2Proof.Safety

/-! ### One letter -/

theorem letterIndex_eq_none {ch : Word} (h : ch.toNat = 0x20 ∨ printable ch = false) : letterIndex ch = none := by
  rw [letterIndex]
  split_ifs with hspace
  · rfl
  · have hne : ch.toNat ≠ 0x20 := fun he => hspace (BitVec.eq_of_toNat_eq he)
    rw [← Option.isNone_iff_eq_none, ← Option.isSome_eq_false_iff, glyphIndex_isSome]
    exact h.resolve_left hne

theorem letterIndex_eq_some {ch : Word} {k : Fin 95} (hne : ch.toNat ≠ 0x20) (hk : ch.toNat = 0x20 + k.val) :
    letterIndex ch = some k := by
  have hspace : ¬ ch = 0x20 := by rintro rfl; exact hne rfl
  rw [letterIndex, if_neg hspace, glyphIndex_eq_some_iff.2 hk]

theorem letterBuffer_of_none {ch : Word} (h : letterIndex ch = none) (f : Font) (c : Color16) (back : Buffer) :
    letterBuffer f ch c back = .ok (bufFill 0) := by
  rw [letterBuffer, h]

theorem letterBuffer_of_large {f : Font} {ch : Word} {k : Fin 95} (h : letterIndex ch = some k)
    (hsize : 8 < f.w.toNat ∨ 8 < f.h.toNat) (c : Color16) (back : Buffer) : letterBuffer f ch c back = .error .outOfRange := by
  rw [letterBuffer, h]
  exact if_pos hsize

theorem letterBuffer_of_fits {f : Font} {ch : Word} {k : Fin 95} (h : letterIndex ch = some k) (hw : f.w.toNat ≤ 8)
    (hh : f.h.toNat ≤ 8) (c : Color16) (back : Buffer) : letterBuffer f ch c back = .ok (drawGlyph f f.glyphs[k] c back) := by
  rw [letterBuffer, h]
  exact if_neg (by omega)

/-- The cell of column `x`, row `y` after a glyph is drawn (44_glyph.md R137). -/
theorem drawGlyph_getElem? (f : Font) (g : GlyphWord) (c : Color16) (back : Buffer) (x y : Fin 8) :
    (drawGlyph f g c back)[8 * y.val + x.val]? =
      if y.val < f.h.toNat ∧ x.val < f.w.toNat then some (if pixelLit f g y.val x.val then c else 0)
      else back[8 * y.val + x.val]? := by
  have hdst : (drawGlyph f g c back)[(cellOf x y).val]? = some (drawGlyph f g c back)[cellOf x y] := Vector.getElem?_eq_getElem _
  have hsrc : back[(cellOf x y).val]? = some back[cellOf x y] := Vector.getElem?_eq_getElem _
  rw [Fin.getElem_fin, drawGlyph_getElem, Fin.eta, colOf_cellOf, rowOf_cellOf, glyphBit_eq_pixelLit, apply_ite some] at hdst
  exact hdst.trans (by rw [← Fin.getElem_fin, ← hsrc]; rfl)

/-- Under an Active Display and with its font selected `DRAWLETTER` writes what `letterBuffer` makes of `back` (44_glyph.md R137). -/
theorem exec_drawLetter_of_font {s : State} {d : Display} {sel : FontSel} {f : Font} (hl : s.life = .active d)
    (hf : selectedFont s sel = some f) (ch : Word) (c : Color16) :
    exec (.drawLetter sel ch c) s = finish .drawLetter s
      (letterBuffer f ch c d.back >>= fun b => .ok (setDisplay s { d with back := b }, [])) := by
  rw [exec, execDrawLetter, needActive_of_active hl, except_ok_bind, selectFont_of_selectedFont hf, except_ok_bind]; rfl

/-- Settles O40: the life-cycle check, the check of the font, and then the three cases of `letterBuffer`. -/
theorem drawLetterDrawsOrClears : Obligations.DrawLetterDrawsOrClears := by
  intro sel ch c s
  have notActive : 0x32080000#32 = headerNat Op.drawLetter.opc.toNat (statusCode .notActive).toNat 0 := by decide
  have invalidFont : 0x320A0000#32 = headerNat Op.drawLetter.opc.toNat (statusCode .invalidFont).toNat 0 := by decide
  have outOfRange : 0x32020000#32 = headerNat Op.drawLetter.opc.toNat (statusCode .outOfRange).toNat 0 := by decide
  have ok : 0x32000000#32 = headerNat Op.drawLetter.opc.toNat 0 0 := by decide
  rw [notActive, invalidFont, outOfRange, ok, c16Nat, ← c16Word_eq, ← fontSelBit_toNat]
  refine ⟨encode_of_payload_length rfl (by decide), answersOnly_notActive rfl,
    fun ha hf => answersOnly_of_check_error rfl ha fun _ => selectFont_of_none hf, fun d f hl hf => ?_⟩
  have he := exec_drawLetter_of_font hl hf ch c
  refine ⟨fun hblank => ⟨bufFill 0, ?_, fun i => bufFill_getElem 0 i i.isLt⟩, fun hne hprint hsize => ?_,
    fun k hne hk hw hh => ⟨drawGlyph f f.glyphs[k] c d.back, ?_, drawGlyph_getElem? f f.glyphs[k] c d.back⟩⟩
  · rw [letterBuffer_of_none (letterIndex_eq_none hblank), except_ok_bind] at he
    exact answersWith_of_exec_eq_finish he
  · rw [← glyphIndex_isSome] at hprint
    obtain ⟨k, hk⟩ := Option.isSome_iff_exists.1 hprint
    rw [letterBuffer_of_large (letterIndex_eq_some hne (glyphIndex_eq_some_iff.1 hk)) hsize, except_error_bind] at he
    exact answersOnly_of_exec_eq_raise he
  · rw [letterBuffer_of_fits (letterIndex_eq_some hne hk) hw hh, except_ok_bind] at he
    exact answersWith_of_exec_eq_finish he

/-! ### Bits `w*h` to 63 of a glyph word -/

section
variable {f f' : Font} (hw : f.w = f'.w) (hh : f.h = f'.h)
include hw hh

/-- A pixel of the glyph is read below bit `w*h` (44_glyph.md R133). -/
theorem glyphBit_congr {g g' : GlyphWord} (hbits : ∀ n < f.w.toNat * f.h.toNat, g.getLsbD n = g'.getLsbD n) {row col : Nat}
    (hrow : row < f.h.toNat) (hcol : col < f.w.toNat) : glyphBit f g row col = glyphBit f' g' row col := by
  have hlt := row_mul_add_col_lt hrow hcol
  rw [glyphBit, glyphBit, ← hw, ← hh]
  exact hbits _ (by omega)

theorem drawGlyph_congr {g g' : GlyphWord} (hbits : ∀ n < f.w.toNat * f.h.toNat, g.getLsbD n = g'.getLsbD n) (c : Color16)
    (back : Buffer) : drawGlyph f g c back = drawGlyph f' g' c back := by
  refine buffer_ext fun i => ?_
  rw [Fin.getElem_fin, Fin.getElem_fin, drawGlyph_getElem, drawGlyph_getElem, ← hw, ← hh]
  by_cases hin : (rowOf i).val < f.h.toNat ∧ (colOf i).val < f.w.toNat
  · rw [if_pos hin, if_pos hin, glyphBit_congr hw hh hbits hin.1 hin.2]
  · rw [if_neg hin, if_neg hin]

theorem glyphColumns_congr {g g' : GlyphWord} (hbits : ∀ n < f.w.toNat * f.h.toNat, g.getLsbD n = g'.getLsbD n) :
    glyphColumns f g = glyphColumns f' g' := by
  rw [glyphColumns, glyphColumns, ← hw]
  refine List.map_congr_left fun k hk => ?_
  rw [glyphColumn, glyphColumn, ← hh]
  refine List.foldl_ext _ _ _ fun v l hl => ?_
  rw [glyphBit_congr hw hh hbits (List.mem_range.1 hl) (List.mem_range.1 hk)]

theorem messageColumns_congr (hbits : ∀ (k : Fin 95) (n : Nat), n < f.w.toNat * f.h.toNat →
      (f.glyphs[k]).getLsbD n = (f'.glyphs[k]).getLsbD n) (first : Bool) (msg : List Word) :
    messageColumns f first msg = messageColumns f' first msg := by
  induction msg generalizing first with
  | nil => rfl
  | cons ch rest ih =>
    cases hk : glyphIndex ch with
    | none =>
      have hp := printable_of_glyphIndex_none hk
      rw [messageColumns_skip hp, messageColumns_skip hp, ih]
    | some k => rw [messageColumns_glyph hk, messageColumns_glyph hk, glyphColumns_congr hw hh (hbits k), ih]

end

/-- Settles O42: drawing a letter and building a column ask for pixels of the glyph alone, all below bit `w*h`. -/
theorem highGlyphBitsAreNeverDrawn : Obligations.HighGlyphBitsAreNeverDrawn := by
  intro f f' hw hh hbits
  refine ⟨fun ch c back => ?_, fun msg => ?_⟩
  · cases hk : letterIndex ch with
    | none => rw [letterBuffer_of_none hk, letterBuffer_of_none hk]
    | some k =>
      by_cases hsize : 8 < f.w.toNat ∨ 8 < f.h.toNat
      · rw [letterBuffer_of_large hk hsize, letterBuffer_of_large hk (hw ▸ hh ▸ hsize)]
      · have hw8 : f.w.toNat ≤ 8 := by omega
        have hh8 : f.h.toNat ≤ 8 := by omega
        rw [letterBuffer_of_fits hk hw8 hh8, letterBuffer_of_fits hk (hw ▸ hw8) (hh ▸ hh8), drawGlyph_congr hw hh (hbits k)]
  · rw [buildColumns, buildColumns, messageColumns_congr hw hh hbits]

/-! ### The start of a scroll -/

/-- The scroll of a message at its first window (44_glyph.md R140, R142). -/
def firstRun (f : Font) (c : Color16) (delay : Word) (msg : List Word) : ScrollRun :=
  { cols := buildColumns f msg, pos := 0, color := c, delay := delay, count := 0 }

theorem startScroll_of_font {s : State} {d : Display} {sel : FontSel} {f : Font} (hl : s.life = .active d)
    (hf : selectedFont s sel = some f) (c : Color16) (delay : Word) (msg : List Word) :
    startScroll sel c delay msg s = if 8 < f.h.toNat then .error .outOfRange
      else .ok (setDisplay s { d with scroll := .running (firstRun f c delay msg) }) := by
  rw [startScroll, needActive_of_active hl, except_ok_bind, selectFont_of_selectedFont hf]; rfl

/-- A `SCROLL` that passes its checks leaves the scroll in flight and does nothing else (log 10). -/
theorem exec_scroll_of_font {s : State} {d : Display} {sel : FontSel} {f : Font} (hl : s.life = .active d)
    (hf : selectedFont s sel = some f) (hh : f.h.toNat ≤ 8) (c : Color16) (delay : Word) (msg : List Word) :
    exec (.scroll sel c delay msg) s = .next (setDisplay s { d with scroll := .running (firstRun f c delay msg) }) := by
  rw [exec, execScroll, startScroll_of_font hl hf, if_neg (Nat.not_lt.2 hh)]

/-- A column of a message is blank or a column of a glyph (44_glyph.md R142). -/
theorem mem_messageColumns {f : Font} {first : Bool} {msg : List Word} {v : Byte} (hv : v ∈ messageColumns f first msg) :
    v = 0 ∨ ∃ g k, v = glyphColumn f g k := by
  induction msg generalizing first with
  | nil => cases hv
  | cons ch rest ih =>
    cases hk : glyphIndex ch with
    | none => rw [messageColumns_skip (printable_of_glyphIndex_none hk)] at hv; exact ih hv
    | some k =>
      rw [messageColumns_glyph hk, List.mem_append, List.mem_append] at hv
      rcases hv with (hgap | hglyph) | hrest
      · cases first with
        | true => cases hgap
        | false => exact .inl (List.mem_singleton.1 hgap)
      · obtain ⟨j, -, rfl⟩ := List.mem_map.1 hglyph
        exact .inr ⟨_, j, rfl⟩
      · exact ih hrest

/-- The rows below a font shorter than 8 are blank in every column (44_glyph.md R142). -/
theorem buildColumns_blank_row {f : Font} (hh : f.h.toNat ≤ 8) {msg : List Word} {v : Byte} (hv : v ∈ buildColumns f msg) {l : Nat}
    (hl : l < 8) (hlow : f.h.toNat ≤ l) : v.getLsbD (7 - l) = false := by
  have hcolumn : v = 0 ∨ ∃ g k, v = glyphColumn f g k := by
    rw [buildColumns, List.mem_append, List.mem_append] at hv
    rcases hv with (hpad | hmessage) | hpad
    · exact .inl (List.eq_of_mem_replicate hpad)
    · exact mem_messageColumns hmessage
    · exact .inl (List.eq_of_mem_replicate hpad)
  rcases hcolumn with rfl | ⟨g, k, rfl⟩
  · exact BitVec.getLsbD_zero
  · rw [glyphColumn_getLsbD f g k hh hl, decide_eq_false (Nat.not_lt.2 hlow), Bool.false_and]

/-- Settles O43: the three checks in order, then the scroll at its first window. -/
theorem scrollStartsAfterItsChecks : Obligations.ScrollStartsAfterItsChecks := by
  intro sel c delay msg s
  have notActive : 0x33080000#32 = headerNat Op.scroll.opc.toNat (statusCode .notActive).toNat 0 := by decide
  have invalidFont : 0x330A0000#32 = headerNat Op.scroll.opc.toNat (statusCode .invalidFont).toNat 0 := by decide
  have outOfRange : 0x33020000#32 = headerNat Op.scroll.opc.toNat (statusCode .outOfRange).toNat 0 := by decide
  rw [notActive, invalidFont, outOfRange, c16Nat, ← c16Word_eq, ← fontSelBit_toNat]
  refine ⟨fun hlen => ?_, fun hs => ?_, fun ha hf => ?_, fun f ha hf htall => ?_, fun d f hl hf hh => ⟨?_, ?_, ?_⟩⟩
  · exact encode_of_payload_length (i := .scroll sel c delay msg) (Nat.add_comm _ 2) (by omega)
  · exact answersOnly_of_exec_eq_raise (exec_scroll_of_error (startScroll_of_not_active hs sel c delay msg))
  · exact answersOnly_of_exec_eq_raise (exec_scroll_of_error (startScroll_of_no_font ha hf c delay msg))
  · obtain ⟨d, hl⟩ := dstate_eq_active_iff.1 ha
    exact answersOnly_of_exec_eq_raise (exec_scroll_of_error ((startScroll_of_font hl hf c delay msg).trans (if_pos htall)))
  · rw [answersWith, exec_scroll_of_font hl hf hh, List.append_nil]; rfl
  · exact buildColumns_length f msg
  · exact fun v hv l hl8 hlow => buildColumns_blank_row hh hv hl8 hlow

/-! ### One frame -/

/-- The Display after the window at `pos` is drawn and presented (44_glyph.md R140, R143), with a given scroll. -/
def windowDisplay (d : Display) (r : ScrollRun) (pos : Nat) (x : Scroll) : Display where
  back := drawWindow r.cols pos r.color
  front := rotApply d.rot (drawWindow r.cols pos r.color)
  rot := d.rot
  scroll := x

/-- The scroll at its next window (44_glyph.md R140). -/
def nextRun (r : ScrollRun) : ScrollRun := { r with pos := r.pos + 1, count := r.count + 1 }

/-- A window drawn after another one is as if drawn first: `back` is cleared (44_glyph.md R143). -/
theorem windowDisplay_windowDisplay (d : Display) (r : ScrollRun) (pos pos' : Nat) (x x' : Scroll) :
    windowDisplay (windowDisplay d r pos x) (nextRun r) pos' x' = windowDisplay d r pos' x' := by
  simp only [windowDisplay, nextRun]

/-- A frame with another window after it. -/
theorem scrollFrame_of_more {r : ScrollRun} {s : State} (hcancel : s.cancel = false) (hmore : r.pos + 9 ≤ r.cols.length)
    (d : Display) : scrollFrame d r s = setDisplay s (windowDisplay d r r.pos (.running (nextRun r))) := by
  rcases scrollFrame_cases d r s with ⟨hend, -⟩ | ⟨-, hc, -⟩ | ⟨-, -, heq⟩ | ⟨hlast, -⟩
  · omega
  · exact Bool.noConfusion (hcancel.symm.trans hc)
  · rw [heq, doPresent_eq]; rfl
  · omega

/-- The frame of the last window. -/
theorem scrollFrame_of_last {r : ScrollRun} {s : State} (hcancel : s.cancel = false) (hlast : r.pos + 8 = r.cols.length)
    (d : Display) : scrollFrame d r s = endScroll .ok (windowDisplay d r r.pos .idle) (r.count + 1) s := by
  rcases scrollFrame_cases d r s with ⟨hend, -⟩ | ⟨-, hc, -⟩ | ⟨hmore, -⟩ | ⟨-, -, heq⟩
  · omega
  · exact Bool.noConfusion (hcancel.symm.trans hc)
  · omega
  · rw [heq, doPresent_eq]; rfl

/-- Settles O45: the window is drawn as `drawWindow` draws it and presented as `rotApply` reorders it, in both frames. -/
theorem scrollFrameDrawsPresentsAndCounts : Obligations.ScrollFrameDrawsPresentsAndCounts := by
  intro s d r hl hr hinputs hcancel hwindow
  have ok : 0x33000001#32 = headerNat Op.scroll.opc.toNat (statusCode .ok).toNat 1 := by decide
  refine ⟨drawWindow r.cols r.pos r.color, rotApply d.rot (drawWindow r.cols r.pos r.color), fun j k v hv => ?_,
    reordered_rotApply _ _, fun hmore => ?_, fun hlast => ?_⟩
  · obtain ⟨v', hv', hcell⟩ := drawWindowClearsAndDrawsEightColumns r.cols r.pos r.color hwindow j k
    cases hv.symm.trans hv'
    exact hcell
  · rw [step_of_running hl hr hinputs, scrollFrame_of_more hcancel hmore, windowDisplay]; rfl
  · rw [step_of_running hl hr hinputs, scrollFrame_of_last hcancel (by omega), endScroll_eq, ok, windowDisplay]

/-! ### All frames -/

/-- The end of a scroll writes the whole Display, whatever it was. -/
theorem endScroll_setDisplay (st : Status) (d d' : Display) (count : Nat) (s : State) :
    endScroll st d count (setDisplay s d') = endScroll st d count s := rfl

/-- With `cancel` at 0 and `n` windows after the present one, `n + 1` steps present them all and end the scroll. -/
theorem run_to_end (n : Nat) {s : State} {d : Display} {r : ScrollRun} (hl : s.life = .active d) (hr : d.scroll = .running r)
    (hinputs : s.inputs = []) (hcancel : s.cancel = false) (hn : r.pos + n + 8 = r.cols.length) :
    Sys2Proof.core.run (n + 1) s = .next (endScroll .ok (windowDisplay d r (r.pos + n) .idle) (r.count + n + 1) s) := by
  induction n generalizing s d r with
  | zero =>
    rw [Nat.add_zero] at hn ⊢
    rw [run_succ_of_next Sys2Proof.core 0 (step_of_running hl hr hinputs), scrollFrame_of_last hcancel hn]; rfl
  | succ n ih =>
    have hstep := step_of_running hl hr hinputs
    rw [scrollFrame_of_more hcancel (by omega)] at hstep
    have hwindow : (nextRun r).pos + n = r.pos + (n + 1) := by simp only [nextRun]; omega
    have hcount : (nextRun r).count + n + 1 = r.count + (n + 1) + 1 := by simp only [nextRun]; omega
    have hrest := ih (setDisplay_life s (windowDisplay d r r.pos (.running (nextRun r)))) rfl hinputs hcancel
      (by rw [hwindow]; exact hn)
    rw [hwindow, hcount, windowDisplay_windowDisplay, endScroll_setDisplay] at hrest
    exact (run_succ_of_next Sys2Proof.core (n + 1) hstep).trans hrest

/-- The window of eight blank columns is all zero, whatever the colour (44_glyph.md R144). -/
theorem drawWindow_of_blank {cols : List Byte} {pos : Nat} (hblank : cols.drop pos = List.replicate 8 0) (c : Color16)
    (i : Fin 64) : (drawWindow cols pos c)[i] = 0 := by
  have hcol : cols.getD (pos + (colOf i).val) 0 = 0 := by
    rw [List.getD_eq_getElem?_getD, ← List.getElem?_drop, hblank, List.getElem?_replicate, if_pos (colOf i).isLt]; rfl
  rw [Fin.getElem_fin, drawWindow_getElem, Fin.eta, hcol, BitVec.ofNat_eq_ofNat, BitVec.getLsbD_zero]; rfl

/-- A message has at least its two pads. -/
theorem sixteen_le_buildColumns_length (f : Font) (msg : List Word) : 16 ≤ (buildColumns f msg).length := by
  simp only [buildColumns, List.length_append, List.length_replicate]
  omega

/-- Settles O48: the frames by induction on the windows left; the last window is the blank pad. -/
theorem scrollRunsEveryFrameToItsEnd : Obligations.ScrollRunsEveryFrameToItsEnd := by
  intro sel c delay msg s d f hl hf hh hcancel hinputs
  have ok : 0x33000001#32 = headerNat Op.scroll.opc.toNat (statusCode .ok).toNat 1 := by decide
  have hlen := sixteen_le_buildColumns_length f msg
  obtain ⟨n, hn⟩ : ∃ n, (buildColumns f msg).length = n + 8 := ⟨_, (Nat.sub_add_cancel (by omega)).symm⟩
  have hframes : totalColumns f.w.toNat (msg.filter printable).length - 7 = n + 1 := by
    rw [← buildColumns_length, hn]; rfl
  have hblank : (buildColumns f msg).drop n = List.replicate 8 0 := by
    rw [← buildColumns_drop f msg, hn, Nat.add_sub_cancel]
  have hback := drawWindow_of_blank hblank c
  refine ⟨_, exec_scroll_of_font hl hf hh c delay msg,
    { d with
      back := drawWindow (buildColumns f msg) n c
      front := rotApply d.rot (drawWindow (buildColumns f msg) n c)
      scroll := .idle }, ?_, fun i => ⟨hback i, ?_⟩, rfl, rfl⟩
  · have hpos : (firstRun f c delay msg).pos + n = n := Nat.zero_add n
    have hcount : (firstRun f c delay msg).count + n + 1 = n + 1 := congrArg (· + 1) (Nat.zero_add n)
    have hrun := run_to_end n (setDisplay_life s { d with scroll := .running (firstRun f c delay msg) }) rfl hinputs hcancel
      (by rw [hpos]; exact hn.symm)
    rw [hframes, hrun, endScroll_eq, ok, hpos, hcount, windowDisplay]; rfl
  · exact (rotApply_getElem d.rot _ i i.isLt).trans (hback _)

/-! ### `cancel` and the commands -/

/-- The state with another level on `cancel`. -/
def setCancel (b : Bool) (s : State) : State := { s with cancel := b }

@[simp] theorem needActive_setCancel (b : Bool) (s : State) : needActive (setCancel b s) = needActive s := rfl
@[simp] theorem selectFont_setCancel (b : Bool) (s : State) (sel : FontSel) :
    selectFont (setCancel b s) sel = selectFont s sel := by cases sel <;> rfl

/-- `finish` on two answers that differ only in the level of `cancel`. -/
theorem finish_setCancel {op : Op} {s t : State} {a a' : Answer} (b : Bool) (ha : a' = a.map (Prod.map (setCancel b) id))
    (h : finish op s a = .next t) : finish op (setCancel b s) a' = .next (setCancel b t) := by
  subst ha
  rcases a with st | ⟨u, ws⟩ <;> cases h <;> rfl

/-- The same after the life-cycle check. -/
theorem finish_needActive_setCancel {op : Op} {s t : State} {k k' : Display → Answer} (b : Bool)
    (hk : ∀ d, k' d = (k d).map (Prod.map (setCancel b) id)) (h : finish op s (needActive s >>= k) = .next t) :
    finish op (setCancel b s) (needActive (setCancel b s) >>= k') = .next (setCancel b t) := by
  refine finish_setCancel b ?_ h
  rw [needActive_setCancel]
  cases needActive s with
  | error st => rfl
  | ok d => exact hk d

/-- The same after one more check `x` that does not look at `cancel`. -/
theorem finish_check_setCancel {α : Type} {op : Op} {s t : State} {x : Display → Except Status α}
    {k k' : Display → α → State × List Word} (b : Bool) (hk : ∀ d a, k' d a = Prod.map (setCancel b) id (k d a))
    (h : finish op s (needActive s >>= fun d => x d >>= fun a => .ok (k d a)) = .next t) :
    finish op (setCancel b s) (needActive (setCancel b s) >>= fun d => x d >>= fun a => .ok (k' d a)) =
      .next (setCancel b t) := by
  refine finish_needActive_setCancel b (fun d => ?_) h
  cases x d with
  | error st => rfl
  | ok a => exact congrArg Except.ok (hk d a)

/-- The start of a scroll does not look at `cancel` (44_glyph.md R140). -/
theorem startScroll_setCancel (sel : FontSel) (c : Color16) (delay : Word) (msg : List Word) (b : Bool) (s : State) :
    startScroll sel c delay msg (setCancel b s) = (startScroll sel c delay msg s).map (setCancel b) := by
  rw [startScroll, startScroll, needActive_setCancel, selectFont_setCancel]
  cases needActive s with
  | error st => rfl
  | ok d =>
    cases selectFont s sel with
    | error st => rfl
    | ok f =>
      simp only [except_ok_bind]
      split_ifs <;> rfl

/-- No command's own step looks at `cancel`, and each keeps it (44_glyph.md R145). -/
theorem exec_setCancel {i : Instr} {s t : State} (b : Bool) (h : exec i s = .next t) :
    exec i (setCancel b s) = .next (setCancel b t) := by
  cases i with
  | pack888 | packRaw | unpack565 | unpack888 => cases h; rfl
  | init =>
    refine finish_setCancel (s := s) b ?_ h
    rcases s with ⟨_ | _ | _, _, _, _, _ | _, _, _, _⟩ <;> rfl
  | release =>
    refine finish_setCancel (s := s) b ?_ h
    rcases s with ⟨_ | _ | _, _, _, _, _, _, _, _⟩ <;> rfl
  | getPix | getPixRaw | setPix | setPixRaw | setAllRaw | drawBitmap | setRot =>
    exact finish_check_setCancel b (fun _ _ => rfl) h
  | getAllRaw | fill | clear | present => exact finish_needActive_setCancel b (fun _ => rfl) h
  | glyphBits sel ch =>
    refine finish_setCancel (s := s) b ?_ h
    rw [selectFont_setCancel]
    cases selectFont s sel with
    | error st => rfl
    | ok f => simp only [except_ok_bind]; cases lookUpGlyph f ch <;> rfl
  | loadFont w v glyphs =>
    refine finish_setCancel (s := s) b ?_ h
    split <;> rfl
  | drawLetter sel ch c =>
    have he := exec_drawLetter_eq (s := s) (sel := sel) rfl ch c
    have he' := exec_drawLetter_eq (selectFont_setCancel b s sel) ch c
    rw [he] at h
    rw [he']
    exact finish_check_setCancel b (fun _ _ => rfl) h
  | scroll sel c delay msg =>
    rw [exec, execScroll] at h
    rw [exec, execScroll, startScroll_setCancel]
    cases hstart : startScroll sel c delay msg s with
    | ok u => rw [hstart] at h; cases h; rfl
    | error st => rw [hstart] at h; cases h; rfl

/-- Settles O47: frame 0 reads `cancel` before it draws; no command's own step looks at it. -/
theorem cancelStaysAndActsOnFramesAlone : Obligations.CancelStaysAndActsOnFramesAlone := by
  refine ⟨fun sel c delay msg s d f hl hf hh hcancel hinputs => ⟨_, exec_scroll_of_font hl hf hh c delay msg, ?_⟩,
    fun i s t b he => exec_setCancel b he⟩
  have cancelled : 0x330B0001#32 = headerNat Op.scroll.opc.toNat (statusCode .cancelled).toNat 1 := by decide
  have hlen := sixteen_le_buildColumns_length f msg
  have hwindow : (firstRun f c delay msg).pos + 8 ≤ (firstRun f c delay msg).cols.length := by
    simp only [firstRun]; omega
  rw [step_of_running (setDisplay_life _ _) rfl hinputs, scrollFrame_of_cancel hwindow (s := setDisplay s _) hcancel,
    endScroll_eq, cancelled]; rfl

end Sys2Proof.Machine
end

section
/-! PROOFS. One step of the block: what can stand at the head of the stream, what the block does with it, and the rules about every step
that follow. -/

namespace Sys2Proof

/-- A stream is empty, ends inside a packet, or starts with a whole one (30_encoding.md R52). -/
theorem takePacket_cases (cmd : List Word) :
    cmd = [] ∨ (∃ h tail, cmd = h :: tail ∧ tail.length < lenField h) ∨
      ∃ h p rest, cmd = h :: (p ++ rest) ∧ p.length = lenField h := by
  cases cmd with
  | nil => exact .inl rfl
  | cons h tail =>
    rcases Nat.lt_or_ge tail.length (lenField h) with hshort | hwhole
    · exact .inr (.inl ⟨h, tail, rfl, hshort⟩)
    · refine .inr (.inr ⟨h, tail.take (lenField h), tail.drop (lenField h), ?_, List.length_take_of_le hwhole⟩)
      rw [List.take_append_drop]

end Sys2Proof

namespace Sys2Proof.Machine

open Sys2Proof.Safety

/-! ### What the block does -/

theorem takeCommand_of_nil {s : State} (hcmd : s.cmd = []) : takeCommand s = .next s := by
  rw [takeCommand, hcmd]; rfl

theorem takeCommand_of_short {s : State} {h : Word} {tail : List Word} (hcmd : s.cmd = h :: tail)
    (hshort : tail.length < lenField h) : takeCommand s = awaitPayload s := by
  rw [takeCommand, hcmd, takePacket_of_short hshort]

theorem takeCommand_of_ok {s : State} {h : Word} {p rest : List Word} {i : Instr} (hcmd : s.cmd = h :: (p ++ rest))
    (hd : decode h p = .ok i) : takeCommand s = exec i { s with cmd := rest } := by
  obtain ⟨-, hlen, -, -⟩ := of_decode_eq_ok hd
  simp only [takeCommand, hcmd, takePacket_of_length hlen, runPacket, hd]

/-- An idle block waits for a header, waits inside a packet, runs a command, or answers a malformed packet. -/
theorem takeCommand_cases (s : State) :
    (s.cmd = [] ∧ takeCommand s = .next s) ∨
    (∃ h tail, s.cmd = h :: tail ∧ tail.length < lenField h ∧ takeCommand s = awaitPayload s) ∨
    (∃ i rest, i.wf = true ∧ takeCommand s = exec i { s with cmd := rest }) ∨
    (∃ h rest, takeCommand s = .next (badCommand h { s with cmd := rest })) := by
  rcases takePacket_cases s.cmd with hnil | ⟨h, tail, hcmd, hshort⟩ | ⟨h, p, rest, hcmd, hlen⟩
  · exact .inl ⟨hnil, takeCommand_of_nil hnil⟩
  · exact .inr (.inl ⟨h, tail, hcmd, hshort, takeCommand_of_short hcmd hshort⟩)
  · cases hd : decode h p with
    | ok i =>
      obtain ⟨-, -, -, hwf⟩ := of_decode_eq_ok hd
      exact .inr (.inr (.inl ⟨i, rest, hwf, takeCommand_of_ok hcmd hd⟩))
    | error e => exact .inr (.inr (.inr ⟨h, rest, takeCommand_of_error hcmd hlen hd⟩))

/-- A scroll in flight makes a frame. -/
theorem advance_of_running {s : State} {d : Display} {r : ScrollRun} (hl : s.life = .active d) (hr : d.scroll = .running r) :
    advance s = .next (scrollFrame d r s) := by
  simp only [advance, hl, hr]

/-- The block makes a frame of the scroll in flight, or takes a command. -/
theorem advance_cases (s : State) :
    (∃ d r, s.life = .active d ∧ d.scroll = .running r ∧ advance s = .next (scrollFrame d r s)) ∨
    (s.scroll = .idle ∧ advance s = takeCommand s) := by
  cases hs : s.scroll with
  | idle => exact .inr ⟨rfl, advance_of_idle hs⟩
  | running r =>
    obtain ⟨d, hl, hr⟩ := scroll_running_iff.1 hs
    exact .inl ⟨d, r, hl, hr, advance_of_running hl hr⟩

theorem awaitPayload_of_nil {s : State} (h : s.inputs = []) : awaitPayload s = .fault .truncatedPacket := if_pos h

theorem awaitPayload_of_ne {s : State} (h : s.inputs ≠ []) : awaitPayload s = .next s := if_neg h

/-- A step is the reset event or what the block does once its input is taken. -/
theorem step_cases (s : State) : step s = .next (resetEvent (takeInput s)) ∨ step s = advance (takeInput s) := by
  unfold step
  split_ifs
  · exact .inl rfl
  · exact .inr rfl

/-- With a drive pending and no scroll in flight, a step takes the drive and then a command. -/
theorem step_of_drive_idle {s : State} {c : Bool} {a : AllocAnswer} {ws : List Word} {ins : List Input}
    (hinputs : s.inputs = .drive c a ws :: ins) (hidle : s.scroll = .idle) :
    step s = takeCommand { s with inputs := ins, cancel := c, alloc := a, cmd := s.cmd ++ ws } :=
  (step_of_drive hinputs).trans (advance_of_idle hidle)

/-- Settles O7: the packet is taken off the stream and its command is run, after the drive where one is pending. -/
theorem stepRunsTheDecodedCommand : Obligations.StepRunsTheDecodedCommand := by
  refine ⟨fun s h p rest i hinputs hidle hcmd hd => ?_, fun s c a ws later ins h p i hinputs hidle hcmd hd => ?_⟩
  · rw [step_of_idle hidle hinputs, takeCommand_of_ok hcmd hd]
  · exact (step_of_drive_idle hinputs hidle).trans (takeCommand_of_ok hcmd hd)

/-! ### Where the machine stops -/

/-- The block stops only inside a packet, with no scroll in flight and no input left, and it refuses nothing. -/
theorem advance_stops {s : State} (h : ∀ t, advance s ≠ .next t) :
    advance s = .fault .truncatedPacket ∧ s.scroll = .idle ∧ s.inputs = [] ∧
      ∃ h tail, s.cmd = h :: tail ∧ tail.length < lenField h := by
  rcases advance_cases s with ⟨d, r, -, -, e⟩ | ⟨hidle, e⟩
  · exact absurd e (h _)
  · rw [e] at h ⊢
    rcases takeCommand_cases s with ⟨-, e⟩ | ⟨w, tail, hcmd, hshort, e⟩ | ⟨i, rest, -, e⟩ | ⟨w, rest, e⟩
    · exact absurd e (h _)
    · rw [e] at h ⊢
      have hinputs : s.inputs = [] := by
        by_contra hne
        exact h _ (awaitPayload_of_ne hne)
      exact ⟨awaitPayload_of_nil hinputs, hidle, hinputs, w, tail, hcmd, hshort⟩
    · obtain ⟨t, ht⟩ := everyCommandCompletes i { s with cmd := rest }
      exact absurd (e.trans ht) (h _)
    · exact absurd e (h _)

/-- Taking an input leaves the scroll in flight. -/
theorem takeInput_scroll (s : State) : (takeInput s).scroll = s.scroll := by
  rw [State.scroll, State.scroll, takeInput_life]

/-- Settles O8: the waits and the stop by the shape of the stream; the only step that has no next state is the block's wait inside a
packet with no input left. -/
theorem stepStopsOnlyInsideATruncatedPacket : Obligations.StepStopsOnlyInsideATruncatedPacket := by
  refine ⟨fun s hinputs hidle hcmd => ?_, fun s h tail hinputs hidle hcmd hshort => ?_,
    fun s c a ws ins h tail hinputs hidle hcmd hshort => ?_, fun s f hf => ?_, fun s r hr => ?_⟩
  · rw [step_of_idle hidle hinputs, takeCommand_of_nil hcmd]
  · rw [← lenField_eq] at hshort
    rw [step_of_idle hidle hinputs, takeCommand_of_short hcmd hshort, awaitPayload_of_nil hinputs]
  · rw [← lenField_eq] at hshort
    have hwaits := (step_of_drive_idle hinputs hidle).trans (takeCommand_of_short hcmd hshort)
    exact ⟨fun hne => hwaits.trans (awaitPayload_of_ne hne), fun hnil => hwaits.trans (awaitPayload_of_nil hnil)⟩
  · rcases step_cases s with e | e <;> rw [e] at hf
    · cases hf
    · obtain ⟨-, hidle, hinputs, h, tail, hcmd, hshort⟩ := advance_stops (s := takeInput s) (fun t ht => by cases hf.symm.trans ht)
      rw [takeInput_scroll] at hidle
      have hlen : s.inputs.length - 1 = 0 := by rw [← List.length_tail, ← takeInput_inputs, hinputs]; rfl
      exact ⟨hidle, by omega, h, tail, hcmd, lenField_eq h ▸ hshort⟩
  · rcases step_cases s with e | e <;> rw [e] at hr
    · cases hr
    · obtain ⟨hfault, -⟩ := advance_stops (s := takeInput s) (fun t ht => by cases hr.symm.trans ht)
      cases hr.symm.trans hfault

/-! ### Inputs that come in a step -/

/-- A frame does not look at the inputs to come. -/
theorem scrollFrame_inputs (d : Display) (r : ScrollRun) (s : State) (ins : List Input) :
    scrollFrame d r { s with inputs := ins } = { scrollFrame d r s with inputs := ins } := by
  simp only [scrollFrame, nextWindow]
  split_ifs <;> rfl

/-- What the block does with no input left it does with later inputs, which it keeps; where it would stop it waits instead. -/
theorem advance_inputs {s : State} (hinputs : s.inputs = []) (ins : List Input) :
    (∀ t, advance s = .next t → advance { s with inputs := ins } = .next { t with inputs := ins }) ∧
    (∀ f, advance s = .fault f → advance { s with inputs := ins } = awaitPayload { s with inputs := ins }) := by
  cases hs : s.scroll with
  | running r =>
    obtain ⟨d, hl, hr⟩ := scroll_running_iff.1 hs
    rw [advance_of_running hl hr, advance_of_running (s := { s with inputs := ins }) hl hr]
    exact ⟨fun t ht => by cases ht; exact congrArg _ (scrollFrame_inputs d r s ins), fun f hf => by cases hf⟩
  | idle =>
    rw [advance_of_idle hs, advance_of_idle (s := { s with inputs := ins }) hs]
    rcases takePacket_cases s.cmd with hcmd | ⟨h, tail, hcmd, hshort⟩ | ⟨h, p, rest, hcmd, hlen⟩
    · rw [takeCommand_of_nil hcmd, takeCommand_of_nil (s := { s with inputs := ins }) hcmd]
      exact ⟨fun t ht => by cases ht; rfl, fun f hf => by cases hf⟩
    · rw [takeCommand_of_short hcmd hshort, takeCommand_of_short (s := { s with inputs := ins }) hcmd hshort,
        awaitPayload_of_nil hinputs]
      exact ⟨fun t ht => (by cases ht), fun _ _ => rfl⟩
    · cases hd : decode h p with
      | ok i =>
        rw [takeCommand_of_ok hcmd hd, takeCommand_of_ok (s := { s with inputs := ins }) hcmd hd]
        refine ⟨fun t ht => exec_inputs ins ht, fun f hf => ?_⟩
        obtain ⟨t, ht⟩ := everyCommandCompletes i { s with cmd := rest }
        cases hf.symm.trans ht
      | error e =>
        rw [takeCommand_of_error hcmd hlen hd, takeCommand_of_error (s := { s with inputs := ins }) hcmd hlen hd]
        exact ⟨fun t ht => by cases ht; rfl, fun f hf => by cases hf⟩

/-- A step that takes a pending drive does what a step with the drive taken and no input pending does, later inputs kept. -/
theorem step_of_drive_of_next {s t : State} {c : Bool} {a : AllocAnswer} {ws : List Word} {ins : List Input}
    (hinputs : s.inputs = .drive c a ws :: ins)
    (ht : step { s with inputs := [], cancel := c, alloc := a, cmd := s.cmd ++ ws } = .next t) :
    step s = .next { t with inputs := ins } := by
  rw [step_of_nil rfl] at ht
  exact (step_of_drive hinputs).trans ((advance_inputs rfl ins).1 t ht)

/-- Settles O60: the drive is taken and the block goes on from there; a cancelled frame and a malformed packet are two such steps. -/
theorem pendingDriveIsTakenFirst : Obligations.PendingDriveIsTakenFirst := by
  refine ⟨fun s c a ws ins hinputs => ⟨fun t ht => step_of_drive_of_next hinputs ht, fun f hf => ?_⟩,
    fun s d r a ws ins hinputs hl hr hwindow => ?_, fun s c a ws ins h p rest hinputs hidle hcmd hlen hm => ?_⟩
  · rw [step_of_nil rfl] at hf
    have hwaits := (step_of_drive hinputs).trans ((advance_inputs rfl ins).2 f hf)
    cases f
    exact ⟨fun hnil => hwaits.trans (awaitPayload_of_nil hnil), fun hne => hwaits.trans (awaitPayload_of_ne hne)⟩
  · obtain ⟨hstep, -⟩ := cancelEndsTheScrollAtAFrame { s with inputs := [], cancel := true, alloc := a, cmd := s.cmd ++ ws } d r
      hl hr rfl rfl hwindow
    exact step_of_drive_of_next hinputs hstep
  · have hstep := malformedPacketAnswersBadCommand { s with inputs := [], cancel := c, alloc := a, cmd := s.cmd ++ ws } h p rest
      rfl hidle hcmd hlen hm
    exact step_of_drive_of_next hinputs hstep

/-! ### The invariant -/

/-- Settles O58: there is no font and no scroll. -/
theorem invariantHoldsAtReset : Obligations.InvariantHoldsAtReset := rfl

/-- The invariant speaks of the user font and of the scroll in flight. -/
theorem inv_iff {s : State} :
    inv s = true ↔ (∀ f, s.ufont = some f → fontFits f = true) ∧ ∀ r, s.scroll = .running r → scrollInRange r = true := by
  rw [inv, Bool.and_eq_true]
  cases s.ufont <;> cases s.scroll <;> simp

theorem inv_of_eq {s t : State} (hs : inv s = true) (hufont : t.ufont = s.ufont) (hscroll : t.scroll = s.scroll) :
    inv t = true := by
  rw [inv, hufont, hscroll]; exact hs

/-- Without a scroll in flight the invariant is that of the font. -/
theorem inv_of_idle {s t : State} (hs : inv s = true) (hufont : t.ufont = s.ufont) (hidle : t.scroll = .idle) : inv t = true := by
  rw [inv_iff] at hs ⊢
  exact ⟨fun f hf => hs.1 f (hufont ▸ hf), fun r hr => by cases hidle.symm.trans hr⟩

/-- A scroll in flight is in range, and the font is as before. -/
theorem inv_of_running {s t : State} {r : ScrollRun} (hs : inv s = true) (hufont : t.ufont = s.ufont)
    (hrun : t.scroll = .running r) (hr : scrollInRange r = true) : inv t = true := by
  rw [inv_iff] at hs ⊢
  refine ⟨fun f hf => hs.1 f (hufont ▸ hf), fun r' hr' => ?_⟩
  cases hrun.symm.trans hr'
  exact hr

theorem scrollInRange_iff {r : ScrollRun} :
    scrollInRange r = true ↔ r.pos + 8 ≤ r.cols.length ∧ r.count = r.pos ∧
      r.cols.drop (r.cols.length - 8) = List.replicate 8 0 ∧ r.cols.length < 2 ^ 32 := by
  simp only [scrollInRange, Bool.and_eq_true, decide_eq_true_eq, and_assoc]

/-- A packet's message has too few columns to reach 2^32 (10_state.md R17, log 15). -/
theorem buildColumns_length_lt (f : Font) {msg : List Word} (hmsg : msg.length ≤ 65533) : (buildColumns f msg).length < 2 ^ 32 := by
  have hchars : (msg.filter printable).length ≤ 65533 := (List.length_filter_le _ _).trans hmsg
  have hwidth : f.w.toNat + 1 ≤ 256 := f.w.isLt
  have hcolumns := Nat.mul_le_mul hchars hwidth
  rw [buildColumns_length, totalColumns]
  split_ifs <;> omega

/-- A scroll that starts is in range. -/
theorem scrollInRange_firstRun (f : Font) (c : Color16) (delay : Word) {msg : List Word} (hmsg : msg.length ≤ 65533) :
    scrollInRange (firstRun f c delay msg) = true := by
  have hlen := sixteen_le_buildColumns_length f msg
  refine scrollInRange_iff.2 ⟨?_, rfl, buildColumns_drop f msg, buildColumns_length_lt f hmsg⟩
  simp only [firstRun]; omega

/-- A scroll with another window after this one is in range there. -/
theorem scrollInRange_nextRun {r : ScrollRun} (hr : scrollInRange r = true) (hmore : r.pos + 9 ≤ r.cols.length) :
    scrollInRange (nextRun r) = true := by
  obtain ⟨-, hcount, hblank, hlen⟩ := scrollInRange_iff.1 hr
  refine scrollInRange_iff.2 ⟨?_, congrArg (· + 1) hcount, hblank, hlen⟩
  simp only [nextRun]; omega

/-- No write starts a scroll: it was idle and stays so. -/
theorem Wrote.scroll_idle {i : Instr} {s u : State} (hw : Wrote i s u) (hidle : s.scroll = .idle) : u.scroll = .idle := by
  cases hw with
  | nothing | font => exact hidle
  | init | release => rfl
  | back b hl => exact (scroll_of_active hl).symm.trans hidle
  | clear hl | setRot _ hl => exact (presentIf_scroll _ _).trans ((scroll_of_active hl).symm.trans hidle)
  | present hl => exact (scroll_of_active hl).symm.trans hidle

/-- A command that runs in an idle block keeps the invariant. -/
theorem exec_keeps_inv {i : Instr} {s t : State} (hs : inv s = true) (hidle : s.scroll = .idle) (hwf : i.wf = true)
    (he : exec i s = .next t) : inv t = true := by
  cases exec_cases he with
  | raised => exact inv_of_eq hs rfl rfl
  | @answered u ws hlen hw =>
    have hidle' := hw.scroll_idle hidle
    refine inv_of_eq (s := u) ?_ rfl rfl
    cases hw with
    | font hfits =>
      refine inv_iff.2 ⟨fun f hf => ?_, (inv_iff.1 hs).2⟩
      cases hf
      exact decide_eq_true hfits
    | nothing | init | release | back | clear | setRot | present => exact inv_of_idle hs rfl hidle'
  | @started sel c delay msg d f hi =>
    subst hi
    exact inv_of_running hs rfl rfl (scrollInRange_firstRun f c delay (of_decide_eq_true hwf))

/-- A frame keeps the invariant. -/
theorem scrollFrame_keeps_inv {d : Display} {r : ScrollRun} {s : State} (hs : inv s = true) (hr : s.scroll = .running r) :
    inv (scrollFrame d r s) = true := by
  have hrange := scrollInRange_of_inv hs hr
  rcases scrollFrame_cases d r s with ⟨-, e⟩ | ⟨-, -, e⟩ | ⟨hmore, -, e⟩ | ⟨-, -, e⟩ <;> rw [e]
  · exact inv_of_idle hs rfl rfl
  · exact inv_of_idle hs rfl rfl
  · exact inv_of_running hs rfl rfl (scrollInRange_nextRun hrange hmore)
  · exact inv_of_idle hs rfl rfl

/-- What the block does keeps the invariant. -/
theorem advance_keeps_inv {s t : State} (hs : inv s = true) (ht : advance s = .next t) : inv t = true := by
  rcases advance_cases s with ⟨d, r, hl, hr, e⟩ | ⟨hidle, e⟩ <;> rw [e] at ht
  · cases ht
    exact scrollFrame_keeps_inv hs ((scroll_of_active hl).trans hr)
  · rcases takeCommand_cases s with ⟨-, e⟩ | ⟨h, tail, -, -, e⟩ | ⟨i, rest, hwf, e⟩ | ⟨h, rest, e⟩ <;> rw [e] at ht
    · cases ht
      exact hs
    · unfold awaitPayload at ht
      split_ifs at ht
      cases ht
      exact hs
    · exact exec_keeps_inv (s := { s with cmd := rest }) hs hidle hwf ht
    · cases ht
      exact inv_of_eq hs rfl rfl

/-- Settles O57: the reset event leaves no font and no scroll; otherwise the step is what the block does once its input is taken. -/
theorem everyStepKeepsTheInvariant : Obligations.EveryStepKeepsTheInvariant := by
  intro s t hs ht
  have htaken : inv (takeInput s) = true := inv_of_eq hs (takeInput_ufont s) (takeInput_scroll s)
  rcases step_cases s with e | e <;> rw [e] at ht
  · cases ht
    rfl
  · exact advance_keeps_inv htaken ht

end Sys2Proof.Machine
end

section
/-! PROOFS. Uninitialized against Released (43_display.md R115). Outside Active no command looks at which of the two it is: `INIT` makes
the same Display of either, `RELEASE` keeps it, and what else a command does it does to both states alike. -/

namespace Sys2Proof.Machine

open Sys2Proof.Safety

theorem sameOutcome_self (o : Out) : sameOutcome o o := by
  cases o with
  | next s => exact ⟨rfl, .inl rfl⟩
  | fault f => rfl
  | refused r => rfl

theorem scroll_of_not_active {s : State} (hs : s.dstate ≠ .active) : s.scroll = .idle := by
  obtain hl | hl := life_of_not_active hs <;> rw [State.scroll, hl]

section
variable {s : State} {l : Life} (hs : s.dstate ≠ .active) (hl : State.dstate { s with life := l } ≠ .active)
include hs hl

/-- Two states outside Active that differ in the life cycle alone are the same to the host. -/
theorem sameToHost_of_not_active : sameToHost s { s with life := l } := ⟨rfl, .inr ⟨hs, hl⟩⟩

/-- A command that comes to the same answer in both states, but for the life cycle it keeps, ends alike. -/
theorem sameOutcome_finish_ok (op : Op) (ws : List Word) :
    sameOutcome (finish op s (.ok (s, ws))) (finish op { s with life := l } (.ok ({ s with life := l }, ws))) :=
  ⟨rfl, .inr ⟨hs, hl⟩⟩

theorem sameOutcome_finish_error (op : Op) (st : Status) :
    sameOutcome (finish op s (.error st)) (finish op { s with life := l } (.error st)) :=
  ⟨rfl, .inr ⟨hs, hl⟩⟩

/-- `INIT` reads `ALLOC`, and makes the fresh Display of either state. -/
theorem sameOutcome_exec_init : sameOutcome (exec .init s) (exec .init { s with life := l }) := by
  by_cases ha : s.alloc = .ok
  · rw [exec_init_of_alloc_ok hs ha, exec_init_of_alloc_ok hl ha]
    exact sameOutcome_self _
  · have hfail : s.alloc = .fail := by
      cases hb : s.alloc with
      | ok => exact absurd hb ha
      | fail => rfl
    rw [exec_init_of_alloc_fail hs hfail, exec_init_of_alloc_fail hl hfail]
    exact sameOutcome_finish_error hs hl _ _

theorem sameOutcome_exec_glyphBits (sel : FontSel) (ch : Word) :
    sameOutcome (exec (.glyphBits sel ch) s) (exec (.glyphBits sel ch) { s with life := l }) := by
  have hfont : selectedFont { s with life := l } sel = selectedFont s sel := by cases sel <;> rfl
  cases hf : selectedFont s sel with
  | none =>
    rw [exec_glyphBits_of_no_font hf, exec_glyphBits_of_no_font (hfont.trans hf)]
    exact sameOutcome_finish_error hs hl _ _
  | some f =>
    rw [exec_glyphBits_of_font hf, exec_glyphBits_of_font (hfont.trans hf)]
    cases lookUpGlyph f ch with
    | error st => exact sameOutcome_finish_error hs hl _ _
    | ok g => exact sameOutcome_finish_ok hs hl _ _

theorem sameOutcome_exec_loadFont (w h : Byte) (glyphs : GlyphTable) :
    sameOutcome (exec (.loadFont w h glyphs) s) (exec (.loadFont w h glyphs) { s with life := l }) := by
  rcases Nat.lt_or_ge 64 (w.toNat * h.toNat) with hlarge | hfits
  · rw [exec_loadFont_of_gt hlarge, exec_loadFont_of_gt hlarge]
    exact sameOutcome_finish_error hs hl _ _
  · rw [exec_loadFont_of_le hfits, exec_loadFont_of_le hfits]
    exact ⟨rfl, .inr ⟨hs, hl⟩⟩

/-- The 13 commands that need the Display answer `NotActive` in both states (60_exceptions.md R157). -/
theorem sameOutcome_exec_of_needsDisplay {i : Instr} (hi : needsDisplay i.op = true) :
    sameOutcome (exec i s) (exec i { s with life := l }) := by
  rw [answersOnly_notActive_of_needsDisplay hi hs, answersOnly_notActive_of_needsDisplay hi hl]
  exact ⟨rfl, .inr ⟨hs, hl⟩⟩

/-- Every command ends alike in the two states. -/
theorem sameOutcome_exec (i : Instr) : sameOutcome (exec i s) (exec i { s with life := l }) := by
  cases i with
  | pack888 | packRaw | unpack565 | unpack888 => exact sameOutcome_finish_ok hs hl _ _
  | init => exact sameOutcome_exec_init hs hl
  | release =>
    rw [exec_release_of_not_active hs, exec_release_of_not_active hl]
    exact sameOutcome_finish_ok hs hl _ _
  | glyphBits sel ch => exact sameOutcome_exec_glyphBits hs hl sel ch
  | loadFont w h glyphs => exact sameOutcome_exec_loadFont hs hl w h glyphs
  | getPix | getPixRaw | getAllRaw | setPix | setPixRaw | setAllRaw | fill | clear | drawBitmap | setRot | present | drawLetter
  | scroll => exact sameOutcome_exec_of_needsDisplay hs hl rfl

/-- The block takes the same command from the same stream, or waits, or stops. -/
theorem sameOutcome_takeCommand : sameOutcome (takeCommand s) (takeCommand { s with life := l }) := by
  rcases takePacket_cases s.cmd with hcmd | ⟨h, tail, hcmd, hshort⟩ | ⟨h, p, rest, hcmd, hlen⟩
  · rw [takeCommand_of_nil hcmd, takeCommand_of_nil (s := { s with life := l }) hcmd]
    exact sameToHost_of_not_active hs hl
  · rw [takeCommand_of_short hcmd hshort, takeCommand_of_short (s := { s with life := l }) hcmd hshort]
    by_cases hinputs : s.inputs = []
    · rw [awaitPayload_of_nil hinputs, awaitPayload_of_nil (s := { s with life := l }) hinputs]
      exact sameOutcome_self _
    · rw [awaitPayload_of_ne hinputs, awaitPayload_of_ne (s := { s with life := l }) hinputs]
      exact sameToHost_of_not_active hs hl
  · cases hd : decode h p with
    | ok i =>
      rw [takeCommand_of_ok hcmd hd, takeCommand_of_ok (s := { s with life := l }) hcmd hd]
      exact sameOutcome_exec (s := { s with cmd := rest }) hs hl i
    | error e =>
      rw [takeCommand_of_error hcmd hlen hd, takeCommand_of_error (s := { s with life := l }) hcmd hlen hd]
      exact ⟨rfl, .inr ⟨hs, hl⟩⟩

end

/-- The input of a step is taken without a look at the life cycle. -/
theorem takeInput_life_comm (s : State) (l : Life) : takeInput { s with life := l } = { takeInput s with life := l } := by
  obtain ⟨_, _, _, _, _, _, _, inputs⟩ := s
  rcases inputs with _ | ⟨_ | _, _⟩ <;> rfl

/-- Two states outside Active that differ in the life cycle alone take a step alike. -/
theorem sameOutcome_step {s : State} {l : Life} (hs : s.dstate ≠ .active) (hl : State.dstate { s with life := l } ≠ .active) :
    sameOutcome (step s) (step { s with life := l }) := by
  have hreset : resetPending { s with life := l } = resetPending s := rfl
  have hs' : (takeInput s).dstate ≠ .active := by rw [State.dstate, takeInput_life]; exact hs
  unfold step
  rw [hreset, takeInput_life_comm s l]
  split_ifs
  · exact sameOutcome_self _
  · rw [advance_of_idle (scroll_of_not_active hs'), advance_of_idle (s := { takeInput s with life := l }) (scroll_of_not_active hl)]
    exact sameOutcome_takeCommand hs' hl

/-- Settles O22: two such states are one state, or both are outside Active and the step ends alike in both. -/
theorem uninitializedAndReleasedAreIndistinguishable : Obligations.UninitializedAndReleasedAreIndistinguishable := by
  intro s t ⟨ht, hlife⟩
  rw [ht] at hlife ⊢
  rcases hlife with hlife | ⟨hs, hl⟩
  · rw [← hlife]
    exact sameOutcome_self _
  · exact sameOutcome_step hs hl

end Sys2Proof.Machine
end
